-- ==== Sys2Proof/Word.lean ====
section
/-! DEFINITION. The value types of R14 (`00_scope.md`): every value of the block is an unsigned bit vector. -/

namespace Sys2Proof

/-- A command: "a 24-bit opcode value" (R14). -/
abbrev Cmd := BitVec 24

/-- A MemoryWord: 24 bits (R14). -/
abbrev Word24 := BitVec 24

/-- A device address, as the table pointer takes it (R7 `ADDR_BITS`, R14). -/
abbrev Addr24 := BitVec 24

/-- A RegisterValue: 16 bits (R14). -/
abbrev Reg16 := BitVec 16

end Sys2Proof
end

