-- ==== Sys2Proof/Machine/Bits.lean ====
section
/-! DEFINITION. Bit orders (R43) and single-bit writes, as the frames and REGOUT use them. -/

namespace Sys2Proof.Machine

/-- The bits of `v`, least significant first. -/
def lsbFirst {n : Nat} (v : BitVec n) : List Bool := (List.range n).map v.getLsbD

/-- The bits of `v`, most significant first. -/
def msbFirst {n : Nat} (v : BitVec n) : List Bool := (lsbFirst v).reverse

/-- The number whose bits, least significant first, are the list. -/
def natOfBits : List Bool → Nat
  | [] => 0
  | b :: bs => b.toNat + 2 * natOfBits bs

/-- The vector whose bits, least significant first, are the list. -/
def ofLsbFirst (n : Nat) (bits : List Bool) : BitVec n := BitVec.ofNat n (natOfBits bits)

/-- `v` with bit `i` set to `b` (the assignment `RV[i] <- b` of R86). -/
def writeBit {n : Nat} (v : BitVec n) (i : Nat) (b : Bool) : BitVec n :=
  if b then v ||| BitVec.twoPow n i else v &&& ~~~(BitVec.twoPow n i)

end Sys2Proof.Machine
end

