-- ==== Sys2Proof/Config.lean ====
section
/-! DEFINITION. What is fixed for the machine: the source's constants (R7), the command scripts the source leaves open
(R8, R9, D14, D38), and the free values: sensed bits (D7) and working registers between requests (U9). -/

namespace Sys2Proof

/-- One item of a script (R8, R13): a command sent by EXEC, or a register read by REGOUT. -/
inductive Item where
  | exec (c : Cmd)
  | regOut
deriving DecidableEq, Repr

/-- CODEC's buffer `W[0..3]`: one group of four words (R30). -/
structure Group where
  w0 : Word24
  w1 : Word24
  w2 : Word24
  w3 : Word24
deriving DecidableEq, Repr, Inhabited

/-- CODEC's buffer `R[0..5]`: the six transfer registers of a group (R30). -/
structure Regs6 where
  r0 : Reg16
  r1 : Reg16
  r2 : Reg16
  r3 : Reg16
  r4 : Reg16
  r5 : Reg16
deriving DecidableEq, Repr, Inhabited

/-- The configuration record `Scripts` of R8. An address script is a function of `a[23:16]` and `a[15:0]` only. -/
structure Scripts where
  /-- `CMD_NOP`, the no-op first command of BEGIN. -/
  cmdNop : Cmd
  /-- `S_DEVID`. -/
  sDevid : List Cmd
  /-- `DEVID_ADDR`, the reserved address of the identity read. -/
  devidAddr : Addr24
  /-- `S_SETUP_RD(a)`, of the high byte and the low half of `a`. -/
  sSetupRd : BitVec 8 → BitVec 16 → List Cmd
  /-- `G_READ`. -/
  gRead : List Item
  /-- `S_SETUP_WR(a)`, of the high byte and the low half of `a`. -/
  sSetupWr : BitVec 8 → BitVec 16 → List Cmd
  /-- `TPL_LOADREG[k]`. -/
  tplLoadreg : Fin 6 → Cmd
  /-- `SH_LOADREG`. -/
  shLoadreg : Nat
  /-- `S_LATCH`. -/
  sLatch : List Cmd
  /-- `S_TRIGGER_WR`. -/
  sTriggerWr : List Cmd
  /-- `S_STATUS`. -/
  sStatus : List Cmd
  /-- `S_SETUP_CFGW(a)`. -/
  sSetupCfgw : Addr24 → List Cmd
  /-- `LOADCFG(v)`. -/
  loadCfg : Word24 → List Cmd
  /-- `S_TRIGGER_CFG`. -/
  sTriggerCfg : List Cmd
  /-- `S_ERASE`. -/
  sErase : List Cmd
  /-- `S_ERASE_TRIGGER`. -/
  sEraseTrigger : List Cmd
deriving Inhabited

/-- A record is well formed (D38, R8, R9): six register reads in a group, and templates whose value field is zero. -/
abbrev Scripts.Wf (sc : Scripts) : Prop :=
  sc.gRead.count .regOut = 6 ∧ sc.shLoadreg ≤ 8 ∧
    ∀ k : Fin 6, sc.tplLoadreg k &&& ((0xFFFF : BitVec 24) <<< sc.shLoadreg) = 0

namespace Config

/-- The record somebody configures the block with (R8: OPEN). Nothing is known of it (log 2). -/
opaque rawScripts : Scripts

/-- A well-formed record that sends nothing but the six register reads of a group. It only says that one exists. -/
def emptyScripts : Scripts where
  cmdNop := 0
  sDevid := []
  devidAddr := 0
  sSetupRd _ _ := []
  gRead := List.replicate 6 .regOut
  sSetupWr _ _ := []
  tplLoadreg _ := 0
  shLoadreg := 0
  sLatch := []
  sTriggerWr := []
  sStatus := []
  sSetupCfgw _ := []
  loadCfg _ := []
  sTriggerCfg := []
  sErase := []
  sEraseTrigger := []

/-- The scripts of this machine. "A model rejects an ill-formed record at configuration time" (D38): an ill-formed
record never becomes the machine's, so this is any well-formed record and nothing more is known of it (log 2). -/
def scripts : Scripts := if rawScripts.Wf then rawScripts else emptyScripts

/-- `KEY` (R7), sent most-significant bit first. -/
def key : BitVec 32 := 0x4D434851

/-- `N_SIX_PAD` (R7). -/
abbrev nSixPad : Nat := 4

/-- `N_FIRST_PAD` (R7). -/
abbrev nFirstPad : Nat := 5

/-- `N_REGOUT_PAD` (R7). -/
abbrev nRegoutPad : Nat := 11

/-- `REG_BITS` (R7). -/
abbrev regBits : Nat := 16

/-- `GROUP_WORDS` (R7). -/
abbrev groupWords : Nat := 4

/-- `MAX_READ` (R7). -/
abbrev maxRead : Nat := 64

/-- `WRITE_BLOCK` (R7). -/
abbrev writeBlock : Nat := 64

/-- `CFG_WORDS` (R7). -/
abbrev cfgWords : Nat := 12

/-- `POLL_LIMIT` (R7): attempts in all, not retries (C2). -/
abbrev pollLimit : Nat := 20

/-- `POLL_MASK` (R7). -/
def pollMask : Reg16 := 0x8000

/-- `T_KEY_SETTLE`, in milliseconds (R7). -/
abbrev tKeySettle : Nat := 5

/-- `T_POWERUP` (R7). -/
abbrev tPowerup : Nat := 30

/-- `T_WRITE_SETTLE` (R7). -/
abbrev tWriteSettle : Nat := 2

/-- `T_CFG_SETTLE` (R7). -/
abbrev tCfgSettle : Nat := 25

/-- `T_ERASE` (R7). -/
abbrev tErase : Nat := 330

/-- `CFG_BASE` (R7), the device address of the configuration range. -/
def cfgBase : Addr24 := 0xF80000

/-- The device address of the programming executive (R41). The block treats no address specially (R42, R46). -/
def peBase : Addr24 := 0x800000

/-- FREE VALUE (D7, U4, log 1): the bit the target device drives at a sample that `State.sense` does not answer. -/
opaque draw : Nat → Bool

/-- FREE VALUE (U9, R29, log 4): `CMDSR` after a request that may have written it. -/
opaque freeCmdsr : Nat → BitVec 24

/-- FREE VALUE (U9, R29, log 4): `FIRST`. -/
opaque freeFirst : Nat → Bool

/-- FREE VALUE (U9, R29, log 4): `RV`. -/
opaque freeRv : Nat → BitVec 16

/-- FREE VALUE (U9, R29, log 4): `BITCNT`. -/
opaque freeBitcnt : Nat → BitVec 6

/-- FREE VALUE (U9, R30, log 4): `W[0..3]`. -/
opaque freeW : Nat → Group

/-- FREE VALUE (U9, R30, log 4): `R[0..5]`. -/
opaque freeR : Nat → Regs6

/-- FREE VALUE (U9, R31, log 4): `GRP`, within its range 0..16. -/
opaque freeGrp : Nat → Fin 17

/-- FREE VALUE (U9, R31, log 4): `POLLN`, within its range 0..20. -/
opaque freePolln : Nat → Fin 21

/-- FREE VALUE (U9, R31, log 4): `CFGI`, within its range 0..12. -/
opaque freeCfgi : Nat → Fin 13

end Config

end Sys2Proof
end

