-- ==== Sys2Proof/Syntax.lean ====
section
/-! DEFINITION. The instructions: one constructor for each row of `spec/opcode_table.json`, and the words its ports carry. -/

namespace Sys2Proof

/-- The rows of the opcode table. Host requests come first (R61), then the primitives (R63), the codec's two functions
(R64), and the wire frames (R65 to R68). -/
inductive Instr where
  /-- BEGIN, OP 0x0 (R111). -/
  | beginSession
  /-- END, OP 0x1 (R112). -/
  | endSession
  /-- READ_DEVID, OP 0x2 (R130). -/
  | readDevid
  /-- READ_MEM, OP 0x3 (R131): address and count. -/
  | readMem (a : Addr24) (n : BitVec 7)
  /-- WRITE_MEM, OP 0x4 (R138): address and data words; `N` is how many there are (R60). -/
  | writeMem (a : Addr24) (d : List Word24)
  /-- READ_CFG, OP 0x5 (R133). -/
  | readCfg
  /-- WRITE_CFG, OP 0x6 (R139): data words; `N` is how many there are (R60). -/
  | writeCfg (d : List Word24)
  /-- ERASE, OP 0x7 (R140). -/
  | erase
  /-- START_DEV, OP 0x8 (R113). -/
  | startDev
  /-- STOP_DEV, OP 0x9 (R114). -/
  | stopDev
  /-- RESERVED_OP, the row of OP 0xA and 0xB (R71), with the header's other 61 bits. -/
  | reservedOpAB (rest : BitVec 61)
  /-- RESERVED_OP, the row of OP 0xC to 0xF (R71), with the header's other 62 bits. -/
  | reservedOpCF (rest : BitVec 62)
  /-- ENTER, PRIM 0 (R83). -/
  | enter
  /-- LEAVE, PRIM 1 (R84). -/
  | leave
  /-- EXEC, PRIM 2 (R85): the isFirst flag and the command. -/
  | execCmd (first : Bool) (c : Cmd)
  /-- REGOUT, PRIM 3 (R86). -/
  | regout
  /-- PACK, SEL 0 (R100). -/
  | pack (w0 w1 w2 w3 : Word24)
  /-- UNPACK, SEL 1 (R101). -/
  | unpack (r0 r1 r2 r3 r4 r5 : Reg16)
  /-- KEY_FRAME (R65). -/
  | keyFrame
  /-- SIX_FRAME (R66): the command it carries. -/
  | sixFrame (c : Cmd)
  /-- SIX_FIRST_FRAME (R67): the command it carries. -/
  | sixFirstFrame (c : Cmd)
  /-- REGOUT_FRAME (R68): the register value the target device drives in it. -/
  | regoutFrame (r : Reg16)
deriving DecidableEq, Repr

/-- What one of the block's interfaces carries at a time (`30_encoding.md`). -/
inductive PortWord where
  /-- Host request port: the header `HDR` and the data words `D` that follow it (R60). -/
  | request (hdr : BitVec 64) (data : List Word24)
  /-- Internal primitive port: the word `P` (R63). -/
  | primitive (p : BitVec 32)
  /-- Internal codec port: `SEL` (R64) and the 96 bits of its operands, the first operand lowest (log 12). -/
  | codec (sel : BitVec 1) (lanes : BitVec 96)
  /-- The wire: a frame's bits in transmission order, earliest first (R65 to R68). -/
  | frame (bits : List Bool)
deriving DecidableEq, Repr

end Sys2Proof
end

