-- ==== Sys2Proof/WellFormed.lean ====
section
/-! DEFINITION. Which terms of `Instr` a port can carry. -/

namespace Sys2Proof

/-- `N` is a 7-bit field (R60): at most 127 data words follow a header. Every other operand's type is its width (R14). -/
def Instr.wf : Instr → Bool
  | .writeMem _ d => decide (d.length < 128)
  | .writeCfg d => decide (d.length < 128)
  | .beginSession | .endSession | .readDevid | .readMem .. | .readCfg | .erase | .startDev | .stopDev
  | .reservedOpAB _ | .reservedOpCF _ | .enter | .leave | .execCmd .. | .regout | .pack .. | .unpack ..
  | .keyFrame | .sixFrame _ | .sixFirstFrame _ | .regoutFrame _ => true

end Sys2Proof
end

