-- ==== Sys2Proof/Decode.lean ====
section
/-! DEFINITION. The decoder of the four interfaces of `30_encoding.md`, total on every word a port can carry, and after it
the encoder written from the same tables. -/

namespace Sys2Proof

open Machine (lsbFirst msbFirst ofLsbFirst)

/-- Why a word is no instruction. -/
inductive Reject where
  /-- A nonzero reserved or unused header field (R62): the block answers IllegalRequest(IR_FIELD). -/
  | irField
  /-- The data words with a header are not the `N` words that R60 says follow it (log 7). -/
  | dataCount
  /-- A primitive word with a nonzero reserved or unused field: R63 gives it no meaning (log 17). -/
  | reservedPrimitive
  /-- Bits in none of the four frame forms of R65 to R68 (log 17). -/
  | unknownFrame
deriving DecidableEq, Repr

/-- `HDR[63:60]`, the operation code (R60). -/
def hdrOp (hdr : BitVec 64) : BitVec 4 := hdr.extractLsb' 60 4

/-- `HDR[54:48]`, the count `N` (R60). -/
def hdrN (hdr : BitVec 64) : BitVec 7 := hdr.extractLsb' 48 7

/-- `HDR[23:0]`, the device address `A` (R60). -/
def hdrA (hdr : BitVec 64) : Addr24 := hdr.extractLsb' 0 24

/-- The reserved fields `HDR[59:55]` and `HDR[47:24]` are zero (R60, R62). -/
def hdrReservedZero (hdr : BitVec 64) : Bool :=
  hdr.extractLsb' 55 5 == 0 && hdr.extractLsb' 24 24 == 0

/-- The number of data words that follow a header (R60): `N` for WRITE_MEM and WRITE_CFG, none for any other operation. -/
def dataWords (hdr : BitVec 64) : Nat :=
  if hdrOp hdr = 4 ∨ hdrOp hdr = 6 then (hdrN hdr).toNat else 0

/-- An operation with no operand (the "uses" column of R61 is empty): `N` and `A` must be zero (R62). -/
def decodeBare (hdr : BitVec 64) (data : List Word24) (i : Instr) : Except Reject Instr :=
  if hdrReservedZero hdr && hdrN hdr == 0 && hdrA hdr == 0 then
    if data.isEmpty then .ok i else .error .dataCount
  else .error .irField

/-- The host request port (R60 to R62, R71). IR_OPCODE comes before IR_FIELD (R166), and both before the data words. -/
def decodeRequest (hdr : BitVec 64) (data : List Word24) : Except Reject Instr :=
  match (hdrOp hdr).toNat with
  | 0x0 => decodeBare hdr data .beginSession
  | 0x1 => decodeBare hdr data .endSession
  | 0x2 => decodeBare hdr data .readDevid
  | 0x3 =>
    if hdrReservedZero hdr then
      if data.isEmpty then .ok (.readMem (hdrA hdr) (hdrN hdr)) else .error .dataCount
    else .error .irField
  | 0x4 =>
    if hdrReservedZero hdr then
      if data.length = (hdrN hdr).toNat then .ok (.writeMem (hdrA hdr) data) else .error .dataCount
    else .error .irField
  | 0x5 => decodeBare hdr data .readCfg
  | 0x6 =>
    if hdrReservedZero hdr && hdrA hdr == 0 then
      if data.length = (hdrN hdr).toNat then .ok (.writeCfg data) else .error .dataCount
    else .error .irField
  | 0x7 => decodeBare hdr data .erase
  | 0x8 => decodeBare hdr data .startDev
  | 0x9 => decodeBare hdr data .stopDev
  | 0xA | 0xB => .ok (.reservedOpAB (hdr.extractLsb' 0 61))
  | _ => .ok (.reservedOpCF (hdr.extractLsb' 0 62))

/-- The internal primitive port (R63). `FIRST` and `CMD` belong to EXEC only; the table's masks refuse them elsewhere. -/
def decodePrimitive (p : BitVec 32) : Except Reject Instr :=
  match (p.extractLsb' 30 2).toNat with
  | 0 => if p.extractLsb' 0 30 = 0 then .ok .enter else .error .reservedPrimitive
  | 1 => if p.extractLsb' 0 30 = 0 then .ok .leave else .error .reservedPrimitive
  | 2 =>
    if p.extractLsb' 25 5 = 0 then .ok (.execCmd (p.getLsbD 24) (p.extractLsb' 0 24))
    else .error .reservedPrimitive
  | _ => if p.extractLsb' 0 30 = 0 then .ok .regout else .error .reservedPrimitive

/-- The internal codec port (R64): SEL 0 packs four words, SEL 1 unpacks six registers. -/
def decodeCodec (sel : BitVec 1) (lanes : BitVec 96) : Instr :=
  if sel = 0 then
    .pack (lanes.extractLsb' 0 24) (lanes.extractLsb' 24 24) (lanes.extractLsb' 48 24) (lanes.extractLsb' 72 24)
  else
    .unpack (lanes.extractLsb' 0 16) (lanes.extractLsb' 16 16) (lanes.extractLsb' 32 16) (lanes.extractLsb' 48 16)
      (lanes.extractLsb' 64 16) (lanes.extractLsb' 80 16)

/-- The wire frames (R65 to R69), bits in transmission order. Their lengths are fixed (R69). -/
def decodeFrame (bits : List Bool) : Except Reject Instr :=
  if bits = msbFirst Config.key then .ok .keyFrame
  else if bits.length = 28 ∧ bits.take 4 = List.replicate 4 false then .ok (.sixFrame (ofLsbFirst 24 (bits.drop 4)))
  else if bits.length = 33 ∧ bits.take 9 = List.replicate 9 false then
    .ok (.sixFirstFrame (ofLsbFirst 24 (bits.drop 9)))
  else if bits.length = 28 ∧ bits.take 12 = true :: List.replicate 11 false then
    .ok (.regoutFrame (ofLsbFirst 16 (bits.drop 12)))
  else .error .unknownFrame

/-- The decoder: which instruction the word on a port is, or why it is none. -/
def decode : PortWord → Except Reject Instr
  | .request hdr data => decodeRequest hdr data
  | .primitive p => decodePrimitive p
  | .codec sel lanes => .ok (decodeCodec sel lanes)
  | .frame bits => decodeFrame bits

/-- A header from its fields, the reserved ones zero (R60). -/
def header (op : BitVec 4) (n : BitVec 7) (a : Addr24) : BitVec 64 :=
  op ++ (0 : BitVec 5) ++ n ++ (0 : BitVec 24) ++ a

/-- A primitive word from its fields, the reserved one zero (R63). -/
def primWord (prim : BitVec 2) (first : Bool) (c : Cmd) : BitVec 32 :=
  prim ++ (0 : BitVec 5) ++ BitVec.ofBool first ++ c

/-- The encoder: the word of a well-formed instruction on its port (R60 to R68). -/
def encode : Instr → PortWord
  | .beginSession => .request (header 0x0 0 0) []
  | .endSession => .request (header 0x1 0 0) []
  | .readDevid => .request (header 0x2 0 0) []
  | .readMem a n => .request (header 0x3 n a) []
  | .writeMem a d => .request (header 0x4 (BitVec.ofNat 7 d.length) a) d
  | .readCfg => .request (header 0x5 0 0) []
  | .writeCfg d => .request (header 0x6 (BitVec.ofNat 7 d.length) 0) d
  | .erase => .request (header 0x7 0 0) []
  | .startDev => .request (header 0x8 0 0) []
  | .stopDev => .request (header 0x9 0 0) []
  | .reservedOpAB rest => .request ((0b101 : BitVec 3) ++ rest) []
  | .reservedOpCF rest => .request ((0b11 : BitVec 2) ++ rest) []
  | .enter => .primitive (primWord 0 false 0)
  | .leave => .primitive (primWord 1 false 0)
  | .execCmd first c => .primitive (primWord 2 first c)
  | .regout => .primitive (primWord 3 false 0)
  | .pack w0 w1 w2 w3 => .codec 0 (w3 ++ w2 ++ w1 ++ w0)
  | .unpack r0 r1 r2 r3 r4 r5 => .codec 1 (r5 ++ r4 ++ r3 ++ r2 ++ r1 ++ r0)
  | .keyFrame => .frame (msbFirst Config.key)
  | .sixFrame c => .frame (List.replicate 4 false ++ lsbFirst c)
  | .sixFirstFrame c => .frame (List.replicate 9 false ++ lsbFirst c)
  | .regoutFrame r => .frame (true :: List.replicate 11 false ++ lsbFirst r)

/-- The 24-bit data words that stand above a header in one number, `D[k]` at bits `64 + 24k` and up. -/
def dataOfNat : Nat → Nat → List Word24
  | 0, _ => []
  | n + 1, w => BitVec.ofNat 24 w :: dataOfNat n (w >>> 24)

/-- A request from one number: the header is its low 64 bits, and the data words that R60 says follow stand above. -/
def requestOfNat (w : Nat) : PortWord :=
  .request (BitVec.ofNat 64 w) (dataOfNat (dataWords (BitVec.ofNat 64 w)) (w >>> 64))

/-- A 32-bit number of the table is the KEY frame, a primitive word or, in its low 28 bits, a SIX or REGOUT frame. The
all-zero number is ENTER (log 11). -/
def word32OfNat (w : Nat) : PortWord :=
  if w = Config.key.toNat then .frame (msbFirst Config.key)
  else match decodePrimitive (BitVec.ofNat 32 w) with
    | .ok _ => .primitive (BitVec.ofNat 32 w)
    | .error _ => if w < 2 ^ 28 then .frame (msbFirst (BitVec.ofNat 28 w)) else .primitive (BitVec.ofNat 32 w)

/-- The codec's word from one number (DESIGN CHOICE, log 11, log 12): a byte that holds the select bit, and the 96 operand
lanes above it. `SEL` is one bit (R64), so bits 1 to 7 of that byte are padding and are not read. A bit above the lanes is of
an operand wider than its type, which must not be accepted at the codec port (R103). -/
def codecOfNat (w : Nat) : Option PortWord :=
  if w < 2 ^ 104 then some (.codec (BitVec.ofNat 1 w) (BitVec.ofNat 96 (w >>> 8))) else none

/-- The port that carries a word of the opcode table, by the row's width, and the word as it stands there (log 11):
64 bits is a request; 32 is `word32OfNat`; 28, 33 and 40 are frames, the earliest bit the most significant one; 1 and 8
are `codecOfNat`. A number with a bit above its word is no word of the port (R14, log 11). -/
def portWordOfTable (nbits w : Nat) : Option PortWord :=
  if nbits = 64 ∧ w < 2 ^ (64 + 24 * dataWords (BitVec.ofNat 64 w)) then some (requestOfNat w)
  else if nbits = 32 ∧ w < 2 ^ 32 then some (word32OfNat w)
  else if nbits = 28 ∧ w < 2 ^ 28 then some (.frame (msbFirst (BitVec.ofNat 28 w)))
  else if (nbits = 33 ∨ nbits = 40) ∧ w < 2 ^ 33 then some (.frame (msbFirst (BitVec.ofNat 33 w)))
  else if nbits = 1 ∨ nbits = 8 then codecOfNat w
  else none

/-- The instruction the decoder reads from a word of the opcode table, none where it refuses. -/
def decodeTableWord (nbits w : Nat) : Option Instr :=
  match portWordOfTable nbits w with
  | some x => (decode x).toOption
  | none => none

end Sys2Proof
end

