-- ==== Sys2Proof/Machine/State.lean ====
section
/-! DEFINITION. The block's state (`10_state.md`), what the agents around it see (R5, R6), and the state after reset (R36, R180). -/

namespace Sys2Proof.Machine

/-- The four line levels of SignalState (R21); true is high, or power on (D37). -/
structure Signals where
  reset : Bool
  power : Bool
  data : Bool
  clock : Bool
deriving DecidableEq, Repr

/-- The names of the four lines (R12, R21). -/
inductive Line where
  | reset
  | power
  | data
  | clock
deriving DecidableEq, Repr

/-- `DRV` (R24): whether the block owns an open LineDriver. -/
inductive Drv where
  | released
  | opened
deriving DecidableEq, Repr

/-- `MODE` (R25). -/
inductive Mode where
  | closed
  | sessionOpen
deriving DecidableEq, Repr

/-- `STATUS` (R32), by name; `Status.code` in Flags.lean gives the 2-bit code. -/
inductive Status where
  | ok
  | preconditionViolation
  | writeTimeout
  | illegalRequest
deriving DecidableEq, Repr

/-- The causes of a PreconditionViolation (R162); `PvCause.code` gives the information value. -/
inductive PvCause where
  /-- `PV_DRIVER_OPEN` -/
  | driverOpen
  /-- `PV_DRIVER_CLOSED` -/
  | driverClosed
  /-- `PV_SESSION_OPEN` -/
  | sessionOpen
  /-- `PV_RUNNING` -/
  | running
  /-- `PV_NO_SESSION` -/
  | noSession
  /-- `PV_NOT_RUNNING` -/
  | notRunning
  /-- `PV_COUNT` -/
  | count
deriving DecidableEq, Repr

/-- The causes of an IllegalRequest (R164). -/
inductive IrCause where
  /-- `IR_OPCODE` -/
  | opcode
  /-- `IR_FIELD` -/
  | field
deriving DecidableEq, Repr

/-- What `raise E(info)` carries (R161 to R164). -/
inductive Err where
  /-- PreconditionViolation (R162). -/
  | violation (c : PvCause)
  /-- WriteTimeout of WRITE_MEM: `WT_BLOCK` with its attempts (R163). -/
  | blockTimeout (attempts : Nat)
  /-- WriteTimeout of WRITE_CFG: `WT_CFG_WORD` with the word's index and its attempts (R163). -/
  | cfgTimeout (index : Nat) (attempts : Nat)
  /-- IllegalRequest (R164). -/
  | illegal (c : IrCause)
deriving DecidableEq, Repr

/-- A response (R60, R161): status, returned words, and the information of an error. -/
structure Response where
  status : Status
  data : List Word24
  info : Option Err
deriving DecidableEq, Repr

/-- An event of the line trace (R6, R12). -/
inductive Event where
  /-- `Open` -/
  | driverOpen
  /-- `Close` -/
  | driverClose
  /-- `Commit(s)` -/
  | commit (s : Signals)
  /-- `Sample -> b` -/
  | sample (b : Bool)
  /-- `Delay(ms)` -/
  | delay (ms : Nat)
deriving DecidableEq, Repr

/-- What CODEC's output side shows (R64). -/
inductive CodecOut where
  | regs (r : Regs6)
  | words (w : Group)
deriving DecidableEq, Repr

/-- The whole state. The fields up to `item` are the spec's; the rest are the model's own: the agents around the block
(R5, R6) and the counters that index free values. -/
structure State where
  /-- `SIG`, the pending SignalState (R21). -/
  sig : Signals
  /-- `WIRE`, the committed SignalState; no value is held before the first commit (R22, R36; log 5). -/
  wire : Option Signals
  /-- `DRV` (R24). -/
  drv : Drv
  /-- `MODE` (R25). -/
  mode : Mode
  /-- `RUN` (R26). -/
  run : Bool
  /-- `STATUS` (R32). -/
  status : Status
  /-- `FATAL` (R33). -/
  fatal : Bool
  /-- `CMDSR` (R29). -/
  cmdsr : BitVec 24
  /-- `FIRST` (R29). -/
  first : Bool
  /-- `RV` (R29). -/
  rv : BitVec 16
  /-- `BITCNT` (R29): how many bits of the frame have gone by (log 13). -/
  bitcnt : BitVec 6
  /-- `W[0..3]` (R30). -/
  w : Group
  /-- `R[0..5]` (R30). -/
  r : Regs6
  /-- `GRP`, 0..16 (R31). -/
  grp : Fin 17
  /-- `POLLN`, 0..20 (R31). -/
  polln : Fin 21
  /-- `CFGI`, 0..12 (R31). -/
  cfgi : Fin 13
  /-- The current script item (R28), none when no script runs (log 13). -/
  item : Option Item
  /-- MODEL'S OWN: what the ports will present, oldest first: the host's requests not yet taken (log 6, log 8). -/
  pending : List PortWord
  /-- MODEL'S OWN: the responses the host received, newest first (R6; log 14). -/
  responses : List Response
  /-- MODEL'S OWN: the line trace the LineDriver observed, newest first (R6; log 14). -/
  trace : List Event
  /-- MODEL'S OWN: what CODEC last showed when it was run alone (log 12). -/
  codecOut : Option CodecOut
  /-- MODEL'S OWN: the bits the target device will drive at the next samples (R5; log 1). -/
  sense : List Bool
  /-- MODEL'S OWN: how many samples have drawn `Config.draw` (log 1). -/
  draws : Nat
  /-- MODEL'S OWN: how many times working registers were left unspecified (log 4). -/
  frees : Nat
deriving DecidableEq, Repr

/-- No constructor: the spec names no condition that stops the block. Errors are responses (R161, R167), the LineDriver
never fails (R165), and no memory access exists that could miss (R40). -/
inductive Fault where
deriving DecidableEq, Repr

/-- Why a step has no meaning. -/
inductive Refusal where
  /-- Raised by an arm of `exec` whose instruction has no meaning yet: safe. No arm is left that raises it. -/
  | notModelled (mnemonic : String)
  /-- Raised by `step` for a legal header with another number of data words than R60 says follow it. Safe: R60 and R14
  let no such request be presented (log 7). -/
  | malformedPacket
  /-- Raised by `step` for a primitive word whose reserved or unused fields are not zero. Safe: R63 gives it no meaning
  and only ENG writes that port (log 17). -/
  | reservedPrimitive
  /-- Raised by `step` for wire bits in none of the frame forms. Safe: the block originates every frame (R69; log 17). -/
  | unknownFrame
deriving DecidableEq, Repr

/-- All four lines low: `{reset:0, power:0, data:0, clock:0}` (R12, R36). -/
def Signals.low : Signals where
  reset := false
  power := false
  data := false
  clock := false

/-- The state after block reset (R36, R180): Idle, all lines pending low, status OK. The spec leaves the working registers
unspecified; zero is this model's (log 3). No request has been issued and no event emitted (R180, R181). -/
def State.reset : State where
  sig := Signals.low
  wire := none
  drv := .released
  mode := .closed
  run := false
  status := .ok
  fatal := false
  cmdsr := 0
  first := false
  rv := 0
  bitcnt := 0
  w := ⟨0, 0, 0, 0⟩
  r := ⟨0, 0, 0, 0, 0, 0⟩
  grp := 0
  polln := 0
  cfgi := 0
  item := none
  pending := []
  responses := []
  trace := []
  codecOut := none
  sense := []
  draws := 0
  frees := 0

end Sys2Proof.Machine
end

