-- ==== Sys2Proof/Machine/Flags.lean ====
section
/-! DEFINITION. `STATUS` and `FATAL` as an error writes them (R32, R33, R161), the code numbers, and the completion-poll
bit (R34, R135). -/

namespace Sys2Proof.Machine

/-- The 2-bit status code (R32). -/
def Status.code : Status → BitVec 2
  | .ok => 0
  | .preconditionViolation => 1
  | .writeTimeout => 2
  | .illegalRequest => 3

/-- The information value of a PreconditionViolation (R162). -/
def PvCause.code : PvCause → Nat
  | .driverOpen => 1
  | .driverClosed => 2
  | .sessionOpen => 3
  | .running => 4
  | .noSession => 5
  | .notRunning => 6
  | .count => 7

/-- The information value of an IllegalRequest (R164). -/
def IrCause.code : IrCause → Nat
  | .opcode => 1
  | .field => 2

/-- `code(E)` (R161). -/
def Err.status : Err → Status
  | .violation _ => .preconditionViolation
  | .blockTimeout _ => .writeTimeout
  | .cfgTimeout _ _ => .writeTimeout
  | .illegal _ => .illegalRequest

/-- The errors that set `FATAL` (R33, R161): PreconditionViolation and IllegalRequest, not WriteTimeout (R163). -/
def Err.setsFatal : Err → Bool
  | .violation _ => true
  | .blockTimeout _ => false
  | .cfgTimeout _ _ => false
  | .illegal _ => true

/-- The completion-poll bit: `(v & POLL_MASK) != 0` (R34, R70, R135). -/
def pollDone (v : Reg16) : Bool := (v &&& Config.pollMask) != 0

end Sys2Proof.Machine
end

