-- ==== Sys2Proof/Machine/Ops.lean ====
section
/-! DEFINITION. The pseudocode primitives of R12 and R13, raising an error (R161), and how a request ends. -/

namespace Sys2Proof.Machine

/-- An operation of the block: it yields a value, or raises an error that ends the request (R13, R161). -/
abbrev Op (α : Type) := EStateM Err State α

/-- Write registers. -/
def update (f : State → State) : Op Unit := fun s => .ok () (f s)

/-- Read registers. -/
def look : Op State := fun s => .ok s s

/-- `raise E(info)` (R13, R161): nothing further of the request happens. -/
def raise {α : Type} (e : Err) : Op α := fun s => .error e s

/-- One line of SignalState written (R21). -/
def Signals.put (g : Signals) : Line → Bool → Signals
  | .reset, b => { g with reset := b }
  | .power, b => { g with power := b }
  | .data, b => { g with data := b }
  | .clock, b => { g with clock := b }

/-- `set(sig, b)` (R12): the pending value only, no event. -/
def setLine (l : Line) (b : Bool) : Op Unit := update fun s => { s with sig := s.sig.put l b }

/-- `commit()` (R12, R22): `WIRE <- SIG`, all four lines at once, and the event. -/
def commit : Op Unit := update fun s => { s with wire := some s.sig, trace := .commit s.sig :: s.trace }

/-- `sample()` (R12, R23): the bit the target device drives now (R5). The device's next answer stands in `sense`; where
none stands there the bit is a free value (log 1). -/
def sample : Op Bool := fun s =>
  match s.sense with
  | b :: rest => .ok b { s with sense := rest, trace := .sample b :: s.trace }
  | [] =>
    .ok (Config.draw s.draws) { s with draws := s.draws + 1, trace := .sample (Config.draw s.draws) :: s.trace }

/-- `delay(ms)` (R12, R171). -/
def delay (ms : Nat) : Op Unit := update fun s => { s with trace := .delay ms :: s.trace }

/-- `drvOpen()` (R12, D3). -/
def drvOpen : Op Unit := update fun s => { s with drv := .opened, sig := Signals.low, trace := .driverOpen :: s.trace }

/-- `drvClose()` (R12). -/
def drvClose : Op Unit := update fun s => { s with drv := .released, trace := .driverClose :: s.trace }

/-- A precondition (R125, R162): where `bad` holds, PreconditionViolation with the cause. -/
def violateIf (bad : State → Bool) (c : PvCause) : Op Unit := fun s =>
  if bad s then .error (.violation c) s else .ok () s

/-- TAKING AN ERROR (R161, R167): `STATUS <- code(E)`, `FATAL <- 1` for the errors that set it, and the response without
data. No mode changes, no state is saved, and nothing is returned from (R167, R168). -/
def State.raised (s : State) (e : Err) : State :=
  { s with
    status := e.status
    fatal := s.fatal || e.setsFatal
    responses := ⟨e.status, [], some e⟩ :: s.responses }

/-- `return v` (R13, R161): `STATUS <- OK` and the response `(0, v, none)`. -/
def State.returned (s : State) (v : List Word24) : State :=
  { s with status := .ok, responses := ⟨.ok, v, none⟩ :: s.responses }

/-- FREE VALUES: SEQ's working registers, whose values between requests are not specified (R29, U9; log 4). -/
def State.freeSeq (s : State) : State :=
  { s with
    cmdsr := Config.freeCmdsr s.frees
    first := Config.freeFirst s.frees
    rv := Config.freeRv s.frees
    bitcnt := Config.freeBitcnt s.frees
    item := none
    frees := s.frees + 1 }

/-- FREE VALUES: what a read may also write by R37: `R[*]`, `W[*]`, `GRP` (U9; log 4). -/
def State.freeRead (s : State) : State :=
  { s.freeSeq with w := Config.freeW s.frees, r := Config.freeR s.frees, grp := Config.freeGrp s.frees }

/-- FREE VALUES: what a write may also write by R37: `POLLN`, `CFGI` (U9; log 4). -/
def State.freeWrite (s : State) : State :=
  { s.freeRead with polln := Config.freePolln s.frees, cfgi := Config.freeCfgi s.frees }

/-- How a request ends, `free` naming the working registers it leaves unspecified. A PreconditionViolation changes only
`STATUS` and `FATAL` (R162); a WriteTimeout comes after all line events of its attempts (R163). -/
def serve (free : State → State) (body : Op (List Word24)) (s : State) : Host.Outcome State Fault Refusal :=
  match body.run s with
  | .ok v t => .next ((free t).returned v)
  | .error e t => .next ((if e.setsFatal then t else free t).raised e)

/-- A primitive or frame run alone on an internal port (log 8): it makes no response unless it raises (log 9). -/
def serveAlone (body : Op Unit) (s : State) : Host.Outcome State Fault Refusal :=
  match body.run s with
  | .ok _ t => .next t
  | .error e t => .next (t.raised e)

/-- A word that is no instruction. A nonzero reserved or unused header field is answered with IllegalRequest(IR_FIELD)
(R62, R71, R164); the other words cannot be presented, and are refused by name (log 7, log 17). -/
def rejectWord (e : Reject) (s : State) : Host.Outcome State Fault Refusal :=
  match e with
  | .irField => .next (s.raised (.illegal .field))
  | .dataCount => .refused .malformedPacket
  | .reservedPrimitive => .refused .reservedPrimitive
  | .unknownFrame => .refused .unknownFrame

end Sys2Proof.Machine
end

