-- ==== Sys2Proof/Machine/Sequencer.lean ====
section
/-! DEFINITION. SEQ, the ICSP Sequencer (`40_sequencer.md`): ENTER, LEAVE, EXEC, REGOUT. -/

namespace Sys2Proof.Machine

/-- `pulse()` (R81): two commits, clock high then low. -/
def pulse : Op Unit := do
  setLine .clock true
  commit
  setLine .clock false
  commit

/-- `repeat n: pulse()`. -/
def pulses : Nat → Op Unit
  | 0 => pure ()
  | n + 1 => do
    pulse
    pulses n

/-- `bitout(b)` (R82): a commit for the data line, then a pulse. -/
def bitout (b : Bool) : Op Unit := do
  setLine .data b
  commit
  pulse

/-- `BITCNT` at the start of a frame's bits (R29; log 13). -/
def clearCount : Op Unit := update fun s => { s with bitcnt := 0 }

/-- One more bit of the frame has gone by (R29; log 13). -/
def countBit : Op Unit := update fun s => { s with bitcnt := s.bitcnt + 1 }

/-- The bits of a frame, one bit-out each, in the order given. -/
def sendBits : List Bool → Op Unit
  | [] => pure ()
  | b :: bs => do
    bitout b
    countBit
    sendBits bs

/-- The KEY frame (R65): 32 bit-outs, most significant bit first. -/
def sendKey : Op Unit := do
  clearCount
  sendBits (msbFirst Config.key)

/-- The check every primitive but ENTER opens with (R80). -/
def requireOpen : Op Unit := violateIf (fun s => s.drv == .released) .driverClosed

/-- ENTER (R83). -/
def seqEnter : Op Unit := do
  violateIf (fun s => s.drv == .opened) .driverOpen
  drvOpen
  setLine .power true
  setLine .data false
  setLine .clock false
  commit
  setLine .reset false
  commit
  setLine .reset true
  commit
  setLine .reset false
  commit
  sendKey
  setLine .data false
  commit
  delay Config.tKeySettle
  setLine .reset true
  commit
  delay Config.tPowerup

/-- LEAVE (R84): reset low first, then power removed; data and clock keep their levels (D5). -/
def seqLeave : Op Unit := do
  requireOpen
  setLine .reset false
  commit
  setLine .power false
  commit
  drvClose

/-- The SIX frame of the command in `CMDSR`, with the five further padding clocks when `FIRST` is set (R66, R67, R85). -/
def sendSix : Op Unit := do
  setLine .data false
  commit
  pulses Config.nSixPad
  let s ← look
  pulses (if s.first then Config.nFirstPad else 0)
  clearCount
  sendBits (lsbFirst s.cmdsr)

/-- EXEC (R85). -/
def seqExec (c : Cmd) (first : Bool) : Op Unit := do
  requireOpen
  update fun s => { s with cmdsr := c, first := first }
  sendSix

/-- The head of a REGOUT frame (R68, R86): the control pulse with data high, then data low and eleven padding clocks. -/
def selectOutput : Op Unit := do
  setLine .data true
  commit
  pulse
  setLine .data false
  commit
  pulses Config.nRegoutPad

/-- One register bit of a REGOUT (R86): clock high, `RV[i] <- sample()`, clock low (D6). -/
def sampleBit (i : Nat) : Op Unit := do
  setLine .clock true
  commit
  let b ← sample
  update fun s => { s with rv := writeBit s.rv i b }
  countBit
  setLine .clock false
  commit

/-- The register bits `0` to `n - 1` of a REGOUT, in that order (R43, R86). -/
def sampleBits : Nat → Op Unit
  | 0 => pure ()
  | n + 1 => do
    sampleBits n
    sampleBit n

/-- REGOUT (R86): sixteen sampled bits after the frame's head; it yields `RV`. -/
def seqRegout : Op Reg16 := do
  requireOpen
  selectOutput
  update fun s => { s with rv := 0 }
  clearCount
  sampleBits Config.regBits
  let s ← look
  pure s.rv

/-- ENTER run alone on the primitive port (R83). -/
def execEnter (s : State) : Host.Outcome State Fault Refusal := serveAlone seqEnter s

/-- LEAVE run alone on the primitive port (R84). -/
def execLeave (s : State) : Host.Outcome State Fault Refusal := serveAlone seqLeave s

/-- EXEC run alone on the primitive port (R85). -/
def execExecCmd (first : Bool) (c : Cmd) (s : State) : Host.Outcome State Fault Refusal :=
  serveAlone (seqExec c first) s

/-- REGOUT run alone on the primitive port (R86); its result stands in `RV`. -/
def execRegout (s : State) : Host.Outcome State Fault Refusal :=
  serveAlone (do let _ ← seqRegout) s

end Sys2Proof.Machine
end

