-- ==== Sys2Proof/Machine/Frames.lean ====
section
/-! DEFINITION. The four wire frames (R65 to R69) as SEQ originates them. A SIX frame is EXEC, a REGOUT frame is REGOUT, and
the KEY frame is the key part of ENTER (log 10). -/

namespace Sys2Proof.Machine

/-- KEY_FRAME (R65): the 32 bit-outs of the key, on a driver the block owns (log 10). -/
def execKeyFrame (s : State) : Host.Outcome State Fault Refusal :=
  serveAlone (do requireOpen; sendKey) s

/-- SIX_FRAME (R66): "EXEC with `FIRST = 0`". -/
def execSixFrame (c : Cmd) (s : State) : Host.Outcome State Fault Refusal := serveAlone (seqExec c false) s

/-- SIX_FIRST_FRAME (R67): "EXEC with `FIRST = 1`". -/
def execSixFirstFrame (c : Cmd) (s : State) : Host.Outcome State Fault Refusal := serveAlone (seqExec c true) s

/-- REGOUT_FRAME (R68): a REGOUT in which the target device drives the bits `r_0 … r_15` of the frame (log 10). -/
def execRegoutFrame (r : Reg16) (s : State) : Host.Outcome State Fault Refusal :=
  serveAlone
    (do requireOpen
        update fun s => { s with sense := lsbFirst r ++ s.sense }
        let _ ← seqRegout) s

end Sys2Proof.Machine
end

