-- ==== Sys2Proof/Machine/Session.lean ====
section
/-! DEFINITION. ENG's session control (`42_engine_session.md`): BEGIN, END, START_DEV, STOP_DEV, and the reserved operation
codes (R71). -/

namespace Sys2Proof.Machine

/-- BEGIN (R111): ENTER, then the only EXEC with `first = 1` (R183). -/
def engBegin (sc : Scripts) : Op (List Word24) := do
  violateIf (fun s => s.mode == .sessionOpen) .sessionOpen
  violateIf (fun s => s.run) .running
  seqEnter
  seqExec sc.cmdNop true
  update fun s => { s with mode := .sessionOpen }
  pure []

/-- END (R112). -/
def engEnd : Op (List Word24) := do
  violateIf (fun s => s.mode == .closed) .noSession
  seqLeave
  update fun s => { s with mode := .closed }
  pure []

/-- START_DEV (R113): one commit raises power and reset (D27). -/
def engStartDev : Op (List Word24) := do
  violateIf (fun s => s.mode == .sessionOpen) .sessionOpen
  violateIf (fun s => s.run) .running
  drvOpen
  setLine .power true
  setLine .reset true
  commit
  update fun s => { s with run := true }
  pure []

/-- STOP_DEV (R114): one commit lowers both. -/
def engStopDev : Op (List Word24) := do
  violateIf (fun s => !s.run) .notRunning
  setLine .reset false
  setLine .power false
  commit
  drvClose
  update fun s => { s with run := false }
  pure []

/-- BEGIN. It leaves SEQ's working registers unspecified (R29, R37; log 4). -/
def execBegin (s : State) : Host.Outcome State Fault Refusal := serve State.freeSeq (engBegin Config.scripts) s

/-- END. It writes no working register (R37). -/
def execEnd (s : State) : Host.Outcome State Fault Refusal := serve id engEnd s

/-- START_DEV. It writes no working register (R37). -/
def execStartDev (s : State) : Host.Outcome State Fault Refusal := serve id engStartDev s

/-- STOP_DEV. It writes no working register (R37). -/
def execStopDev (s : State) : Host.Outcome State Fault Refusal := serve id engStopDev s

/-- RESERVED_OP, codes 0xA and 0xB: IllegalRequest(IR_OPCODE), no line event, no other change (R71, R164). -/
def execReservedOpAB (_rest : BitVec 61) (s : State) : Host.Outcome State Fault Refusal :=
  .next (s.raised (.illegal .opcode))

/-- RESERVED_OP, codes 0xC to 0xF: IllegalRequest(IR_OPCODE), no line event, no other change (R71, R164). -/
def execReservedOpCF (_rest : BitVec 62) (s : State) : Host.Outcome State Fault Refusal :=
  .next (s.raised (.illegal .opcode))

end Sys2Proof.Machine
end

