-- ==== Sys2Proof/Machine/Codec.lean ====
section
/-! DEFINITION. CODEC (`41_codec.md`): combinational, no event, no error, no architectural state (R104). -/

namespace Sys2Proof.Machine

/-- PACK (R100): `r1` and `r4` merge the high bytes of a pair, the later word's in bits 15..8. -/
def packWords (g : Group) : Regs6 where
  r0 := g.w0.extractLsb' 0 16
  r1 := g.w1.extractLsb' 16 8 ++ g.w0.extractLsb' 16 8
  r2 := g.w1.extractLsb' 0 16
  r3 := g.w2.extractLsb' 0 16
  r4 := g.w3.extractLsb' 16 8 ++ g.w2.extractLsb' 16 8
  r5 := g.w3.extractLsb' 0 16

/-- UNPACK (R101). -/
def unpackRegs (r : Regs6) : Group where
  w0 := r.r1.extractLsb' 0 8 ++ r.r0
  w1 := r.r1.extractLsb' 8 8 ++ r.r2
  w2 := r.r4.extractLsb' 0 8 ++ r.r3
  w3 := r.r4.extractLsb' 8 8 ++ r.r5

/-- PACK on the codec port: its output shows the six registers; nothing of the block's state changes (R64, R104; log 12). -/
def execPack (w0 w1 w2 w3 : Word24) (s : State) : Host.Outcome State Fault Refusal :=
  .next { s with codecOut := some (.regs (packWords ⟨w0, w1, w2, w3⟩)) }

/-- UNPACK on the codec port: its output shows the four words (R64, R104; log 12). -/
def execUnpack (r0 r1 r2 r3 r4 r5 : Reg16) (s : State) : Host.Outcome State Fault Refusal :=
  .next { s with codecOut := some (.words (unpackRegs ⟨r0, r1, r2, r3, r4, r5⟩)) }

end Sys2Proof.Machine
end

