-- ==== Sys2Proof/Machine/Operands.lean ====
section
/-! DEFINITION. Operand assembly (R70), the address split (R42), register arrays, and the operand shapes a request admits (R46). -/

namespace Sys2Proof.Machine

/-- `hi = a[23:16]` (R42, R70). -/
def addrHi (a : Addr24) : BitVec 8 := a.extractLsb' 16 8

/-- `lo = a[15:0]` (R42, R70). -/
def addrLo (a : Addr24) : BitVec 16 := a.extractLsb' 0 16

/-- The address load of a read (R126): `S_SETUP_RD(a)`. -/
def setupRd (sc : Scripts) (a : Addr24) : List Cmd := sc.sSetupRd (addrHi a) (addrLo a)

/-- The address load of a flash write (R126): `S_SETUP_WR(a)`. -/
def setupWr (sc : Scripts) (a : Addr24) : List Cmd := sc.sSetupWr (addrHi a) (addrLo a)

/-- `LOADREG(k, r) = TPL_LOADREG[k] | (zext_24(r) << SH_LOADREG)` (R9, R70, R127). -/
def loadReg (sc : Scripts) (k : Fin 6) (v : Reg16) : Cmd :=
  sc.tplLoadreg k ||| (v.zeroExtend 24 <<< sc.shLoadreg)

/-- READ_MEM admits `N > 0`, `N mod 4 = 0`, `N <= 64` (R46, R131, C1). -/
def readCountOk (n : Nat) : Bool := n != 0 && n % Config.groupWords == 0 && decide (n ≤ Config.maxRead)

/-- The words `D[4g..4g+3]` of a write (R128). -/
def groupOf (d : List Word24) (g : Nat) : Group :=
  ⟨d.getD (4 * g) 0, d.getD (4 * g + 1) 0, d.getD (4 * g + 2) 0, d.getD (4 * g + 3) 0⟩

/-- `[W[0], W[1], W[2], W[3]]` (R131). -/
def groupList (g : Group) : List Word24 := [g.w0, g.w1, g.w2, g.w3]

/-- `R[k]` (R13, R30). -/
def regAt (r : Regs6) : Fin 6 → Reg16
  | 0 => r.r0
  | 1 => r.r1
  | 2 => r.r2
  | 3 => r.r3
  | 4 => r.r4
  | 5 => r.r5

/-- `R[j] <- v` (R13, R132). A well-formed `G_READ` has exactly six register reads, so `j` is 0..5 (R132). -/
def setReg (r : Regs6) (j : Nat) (v : Reg16) : Regs6 :=
  match j with
  | 0 => { r with r0 := v }
  | 1 => { r with r1 := v }
  | 2 => { r with r2 := v }
  | 3 => { r with r3 := v }
  | 4 => { r with r4 := v }
  | 5 => { r with r5 := v }
  | _ => r

end Sys2Proof.Machine
end

