-- ==== Sys2Proof/Machine/Transfer.lean ====
section
/-! DEFINITION. ENG's device operations (`43_engine_transfer.md`): READ_DEVID, READ_MEM, READ_CFG, WRITE_MEM, WRITE_CFG, ERASE.
Every EXEC they issue has `first = 0` (R125, R183). -/

namespace Sys2Proof.Machine

/-- The current script item (R28). -/
def loadItem (i : Option Item) : Op Unit := update fun s => { s with item := i }

/-- An `Exec(c)` item (R13): `exec(c, 0)`. -/
def runExec (c : Cmd) : Op Unit := do
  loadItem (some (.exec c))
  seqExec c false

/-- A `RegOut` item (R13): `regout()`. -/
def runRegout : Op Reg16 := do
  loadItem (some .regOut)
  seqRegout

/-- `run(S)` for a list of commands (R13). -/
def runCmds : List Cmd → Op Unit
  | [] => pure ()
  | c :: cs => do
    runExec c
    runCmds cs

/-- The session check every device operation opens with (R125). -/
def requireSession : Op Unit := violateIf (fun s => s.mode != .sessionOpen) .noSession

/-- The items of `G_READ` from register index `j` on (R132): the j-th register read is `r_j`. -/
def readItems : List Item → Nat → Op Unit
  | [], _ => pure ()
  | .exec c :: is, j => do
    runExec c
    readItems is j
  | .regOut :: is, j => do
    let v ← runRegout
    update fun s => { s with r := setReg s.r j v }
    readItems is (j + 1)

/-- READ_GROUP (R132): `G_READ` once, then `W[0..3] <- UNPACK(R[0..5])`. -/
def readGroup (sc : Scripts) : Op Unit := do
  readItems sc.gRead 0
  update fun s => { s with w := unpackRegs s.r }

/-- `GRP <- g` (R31). -/
def setGrp (g : Nat) : Op Unit := update fun s => { s with grp := Fin.ofNat 17 g }

/-- The groups of a read, `k` of them from index `g` (R131): the words of each group follow those of the one before (D39). -/
def readGroups (sc : Scripts) : Nat → Nat → Op (List Word24)
  | 0, _ => pure []
  | k + 1, g => do
    setGrp g
    readGroup sc
    let s ← look
    let out ← readGroups sc k (g + 1)
    pure (groupList s.w ++ out)

/-- The block read that READ_MEM, READ_CFG share (R131, R133): the address once, then `k` groups. -/
def readBlock (sc : Scripts) (a : Addr24) (k : Nat) : Op (List Word24) := do
  runCmds (setupRd sc a)
  readGroups sc k 0

/-- READ_DEVID (R130): `[W[0], W[1]]` of one group, unmodified (C6). -/
def engReadDevid (sc : Scripts) : Op (List Word24) := do
  requireSession
  runCmds sc.sDevid
  runCmds (setupRd sc sc.devidAddr)
  readGroup sc
  let s ← look
  pure [s.w.w0, s.w.w1]

/-- READ_MEM (R131). The session is checked before the count (R166). -/
def engReadMem (sc : Scripts) (a : Addr24) (n : Nat) : Op (List Word24) := do
  requireSession
  violateIf (fun _ => !readCountOk n) .count
  readBlock sc a (n / Config.groupWords)

/-- READ_CFG (R133): three groups from `CFG_BASE`. -/
def engReadCfg (sc : Scripts) : Op (List Word24) := do
  requireSession
  readBlock sc Config.cfgBase (Config.cfgWords / Config.groupWords)

/-- `POLLN <- n` (R31). -/
def setPolln (n : Nat) : Op Unit := update fun s => { s with polln := Fin.ofNat 21 n }

/-- A poll attempt (R135): the status request, one register read, its bit 15. -/
def pollAttempt (sc : Scripts) : Op Bool := do
  runCmds sc.sStatus
  let v ← runRegout
  pure (pollDone v)

/-- The attempts that are left of the poll loop, with no delay between them (R136); true is success. -/
def pollLoop (sc : Scripts) : Nat → Op Bool
  | 0 => pure false
  | left + 1 => do
    setPolln (Config.pollLimit - left)
    let done ← pollAttempt sc
    if done then pure true else pollLoop sc left

/-- POLL (R136), and WriteTimeout at once when no attempt saw the bit (R137, R141). -/
def pollOrRaise (sc : Scripts) (e : Err) : Op Unit := do
  let done ← pollLoop sc Config.pollLimit
  if done then pure () else raise e

/-- The register loads of a group, in the order `r0..r5` (R128). -/
def loadRegs (sc : Scripts) (r : Regs6) : List Cmd :=
  [loadReg sc 0 (regAt r 0), loadReg sc 1 (regAt r 1), loadReg sc 2 (regAt r 2), loadReg sc 3 (regAt r 3),
    loadReg sc 4 (regAt r 4), loadReg sc 5 (regAt r 5)]

/-- WRITE_GROUP(g) (R128). -/
def writeGroup (sc : Scripts) (d : List Word24) (g : Nat) : Op Unit := do
  update fun s => { s with w := groupOf d g }
  update fun s => { s with r := packWords s.w }
  let s ← look
  runCmds (loadRegs sc s.r)
  runCmds sc.sLatch

/-- The groups of a write, `k` of them from index `g` (R138). -/
def writeGroups (sc : Scripts) (d : List Word24) : Nat → Nat → Op Unit
  | 0, _ => pure ()
  | k + 1, g => do
    setGrp g
    writeGroup sc d g
    writeGroups sc d k (g + 1)

/-- WRITE_MEM (R138). -/
def engWriteMem (sc : Scripts) (a : Addr24) (d : List Word24) : Op (List Word24) := do
  requireSession
  violateIf (fun _ => d.length != Config.writeBlock) .count
  runCmds (setupWr sc a)
  writeGroups sc d (Config.writeBlock / Config.groupWords) 0
  runCmds sc.sTriggerWr
  delay Config.tWriteSettle
  pollOrRaise sc (.blockTimeout Config.pollLimit)
  pure []

/-- `CFGI <- i` (R31). -/
def setCfgi (i : Nat) : Op Unit := update fun s => { s with cfgi := Fin.ofNat 13 i }

/-- The words of a configuration write from index `i` on (R139): each is loaded, triggered, settled and polled, and the
first that times out ends the request (D18). -/
def writeCfgWords (sc : Scripts) : List Word24 → Nat → Op Unit
  | [], _ => pure ()
  | v :: vs, i => do
    setCfgi i
    runCmds (sc.loadCfg v)
    runCmds sc.sTriggerCfg
    delay Config.tCfgSettle
    pollOrRaise sc (.cfgTimeout i Config.pollLimit)
    writeCfgWords sc vs (i + 1)

/-- WRITE_CFG (R139): one word at a time, without CODEC (R104). -/
def engWriteCfg (sc : Scripts) (d : List Word24) : Op (List Word24) := do
  requireSession
  violateIf (fun _ => d.length != Config.cfgWords) .count
  runCmds (sc.sSetupCfgw Config.cfgBase)
  writeCfgWords sc d 0
  pure []

/-- ERASE (R140): time-based only, never polled (C4, R186). -/
def engErase (sc : Scripts) : Op (List Word24) := do
  requireSession
  runCmds sc.sErase
  runCmds sc.sEraseTrigger
  delay Config.tErase
  pure []

/-- READ_DEVID. It leaves what R37 says a read may write unspecified (log 4). -/
def execReadDevid (s : State) : Host.Outcome State Fault Refusal := serve State.freeRead (engReadDevid Config.scripts) s

/-- READ_MEM. `N` is unsigned (R70). -/
def execReadMem (a : Addr24) (n : BitVec 7) (s : State) : Host.Outcome State Fault Refusal :=
  serve State.freeRead (engReadMem Config.scripts a n.toNat) s

/-- READ_CFG. -/
def execReadCfg (s : State) : Host.Outcome State Fault Refusal := serve State.freeRead (engReadCfg Config.scripts) s

/-- WRITE_MEM. It leaves what R37 says a write may write unspecified (log 4). -/
def execWriteMem (a : Addr24) (d : List Word24) (s : State) : Host.Outcome State Fault Refusal :=
  serve State.freeWrite (engWriteMem Config.scripts a d) s

/-- WRITE_CFG. -/
def execWriteCfg (d : List Word24) (s : State) : Host.Outcome State Fault Refusal :=
  serve State.freeWrite (engWriteCfg Config.scripts d) s

/-- ERASE. -/
def execErase (s : State) : Host.Outcome State Fault Refusal := serve State.freeSeq (engErase Config.scripts) s

end Sys2Proof.Machine
end

