-- ==== Sys2Proof/Machine/Dispatch.lean ====
section
/-! DEFINITION. One arm per constructor of `Instr`, each one call of its meaning. -/

namespace Sys2Proof.Machine

def exec (i : Instr) (s : State) : Host.Outcome State Fault Refusal :=
  match i with
  | .beginSession => Sys2Proof.Machine.execBegin s
  | .endSession => Sys2Proof.Machine.execEnd s
  | .readDevid => Sys2Proof.Machine.execReadDevid s
  | .readMem a n => Sys2Proof.Machine.execReadMem a n s
  | .writeMem a d => Sys2Proof.Machine.execWriteMem a d s
  | .readCfg => Sys2Proof.Machine.execReadCfg s
  | .writeCfg d => Sys2Proof.Machine.execWriteCfg d s
  | .erase => Sys2Proof.Machine.execErase s
  | .startDev => Sys2Proof.Machine.execStartDev s
  | .stopDev => Sys2Proof.Machine.execStopDev s
  | .reservedOpAB rest => Sys2Proof.Machine.execReservedOpAB rest s
  | .reservedOpCF rest => Sys2Proof.Machine.execReservedOpCF rest s
  | .enter => Sys2Proof.Machine.execEnter s
  | .leave => Sys2Proof.Machine.execLeave s
  | .execCmd first c => Sys2Proof.Machine.execExecCmd first c s
  | .regout => Sys2Proof.Machine.execRegout s
  | .pack w0 w1 w2 w3 => Sys2Proof.Machine.execPack w0 w1 w2 w3 s
  | .unpack r0 r1 r2 r3 r4 r5 => Sys2Proof.Machine.execUnpack r0 r1 r2 r3 r4 r5 s
  | .keyFrame => Sys2Proof.Machine.execKeyFrame s
  | .sixFrame c => Sys2Proof.Machine.execSixFrame c s
  | .sixFirstFrame c => Sys2Proof.Machine.execSixFirstFrame c s
  | .regoutFrame r => Sys2Proof.Machine.execRegoutFrame r s

end Sys2Proof.Machine
end

