-- ==== Sys2Proof/Machine/Step.lean ====
section
/-! DEFINITION. One step of the block: the oldest pending word is taken, decoded and served to completion (R28, R50, R181). -/

namespace Sys2Proof.Machine

/-- One step. With nothing pending the block is idle and holds its state (R172, R181). -/
def step (s : State) : Host.Outcome State Fault Refusal :=
  match s.pending with
  | [] => .next s
  | x :: rest =>
    match decode x with
    | .ok i => exec i { s with pending := rest }
    | .error e => rejectWord e { s with pending := rest }

/-- `s` with a word of the opcode table presented before all else (log 6, log 8, log 11): the next step takes it. -/
def State.withFetchWord (s : State) (nbits w : Nat) : State :=
  match portWordOfTable nbits w with
  | some x => { s with pending := x :: s.pending }
  | none => s

end Sys2Proof.Machine
end

