-- ==== Sys2Proof/Machine/Text.lean ====
section
/-! DEFINITION. The assembler syntax of R72: requests, primitives and codec calls as text, one a line (log 22). The syntax has no
pseudo-instruction (R73), and no form for the reserved codes or the wire frames. -/

namespace Sys2Proof.Machine

/-- The value of a digit in a base of at most 16. -/
def digitVal (base : Nat) (c : Char) : Option Nat :=
  let v :=
    if 48 ≤ c.toNat ∧ c.toNat ≤ 57 then c.toNat - 48
    else if 97 ≤ c.toNat ∧ c.toNat ≤ 102 then c.toNat - 87
    else if 65 ≤ c.toNat ∧ c.toNat ≤ 70 then c.toNat - 55
    else base
  if v < base then some v else none

/-- The digits of a number, most significant first, after the value of those before them. -/
def digitsVal (base : Nat) : Nat → List Char → Option Nat
  | acc, [] => some acc
  | acc, c :: cs =>
    match digitVal base c with
    | some v => digitsVal base (acc * base + v) cs
    | none => none

/-- A number "in decimal or `0x` hexadecimal" (R72). -/
def numberVal : List Char → Option Nat
  | [] => none
  | '0' :: 'x' :: c :: cs => digitsVal 16 0 (c :: cs)
  | cs => digitsVal 10 0 cs

/-- A number as an operand; "A value outside its type cannot be presented at any port" (R14). -/
def operandVal (n : Nat) (cs : List Char) : Option (BitVec n) :=
  match numberVal cs with
  | some v => if v < 2 ^ n then some (BitVec.ofNat n v) else none
  | none => none

/-- Numbers as data words. -/
def wordVals : List (List Char) → Option (List Word24)
  | [] => some []
  | cs :: rest =>
    match operandVal 24 cs, wordVals rest with
    | some v, some vs => some (v :: vs)
    | _, _ => none

/-- A blank within a line. -/
def isBlank (c : Char) : Bool := c == ' ' || c == '\t'

/-- A text without the blanks at its ends. -/
def trim (cs : List Char) : List Char := ((cs.dropWhile isBlank).reverse.dropWhile isBlank).reverse

/-- The pieces of a text between commas. -/
def commaSplit : List Char → List (List Char)
  | [] => [[]]
  | c :: cs =>
    if c = ',' then [] :: commaSplit cs
    else
      match commaSplit cs with
      | [] => [[c]]
      | w :: ws => (c :: w) :: ws

/-- A line without its comment: the texts of R72 and of the test programs open one with `;`. -/
def lineBody (line : List Char) : List Char := trim (line.takeWhile (· != ';'))

/-- The name a line opens with. -/
def lineName (line : List Char) : List Char := (lineBody line).takeWhile fun c => !isBlank c

/-- The operands of a line, without the blanks around them. -/
def lineOperands (line : List Char) : List (List Char) :=
  let rest := trim ((lineBody line).dropWhile fun c => !isBlank c)
  if rest.isEmpty then [] else (commaSplit rest).map trim

/-- The mnemonics of R72, with the source's own names, which "are aliases". -/
def aliases : List (String × String) :=
  [("BEGIN", "begin"), ("END", "end"), ("START_DEV", "startDevice"), ("STOP_DEV", "stopDevice"),
    ("READ_DEVID", "readDeviceId"), ("READ_MEM", "readMemory"), ("WRITE_MEM", "writeMemory"),
    ("READ_CFG", "readConfigMemory"), ("WRITE_CFG", "writeConfigMemory"), ("ERASE", "eraseChip"),
    ("ENTER", "enterSession"), ("LEAVE", "leaveSession"), ("EXEC", "execute"), ("REGOUT", "readRegister"),
    ("PACK", "pack"), ("UNPACK", "unpack")]

/-- The mnemonic a name stands for: itself, or the one it is the alias of. -/
def mnemonicOf (name : List Char) : Option String :=
  (aliases.find? fun p => name == p.1.toList || name == p.2.toList).map Prod.fst

/-- An instruction that takes no operand. -/
def bare (ops : List (List Char)) (i : Instr) : Option Instr := if ops.isEmpty then some i else none

/-- READ_MEM's text (R72). -/
def assembleRead : List (List Char) → Option Instr
  | [a, n] =>
    match operandVal 24 a, operandVal 7 n with
    | some a, some n => some (.readMem a n)
    | _, _ => none
  | _ => none

/-- WRITE_MEM's text (R72); "N is the number of data words written". -/
def assembleWrite : List (List Char) → Option Instr
  | a :: ds =>
    match operandVal 24 a, wordVals ds with
    | some a, some d => some (.writeMem a d)
    | _, _ => none
  | [] => none

/-- EXEC's text (R72). -/
def assembleExec : List (List Char) → Option Instr
  | [c] => (operandVal 24 c).map (.execCmd false)
  | [c, f] => if f = "FIRST".toList then (operandVal 24 c).map (.execCmd true) else none
  | _ => none

/-- PACK's text (R72). -/
def assemblePack (ops : List (List Char)) : Option Instr :=
  match ops.map (operandVal 24) with
  | [some w0, some w1, some w2, some w3] => some (.pack w0 w1 w2 w3)
  | _ => none

/-- UNPACK's text (R72). -/
def assembleUnpack (ops : List (List Char)) : Option Instr :=
  match ops.map (operandVal 16) with
  | [some r0, some r1, some r2, some r3, some r4, some r5] => some (.unpack r0 r1 r2 r3 r4 r5)
  | _ => none

/-- The instruction a mnemonic and its operands stand for. A list of more than 127 data words is no request (R60). -/
def assembleOps (mnemonic : String) (ops : List (List Char)) : Option Instr :=
  (match mnemonic with
    | "BEGIN" => bare ops .beginSession
    | "END" => bare ops .endSession
    | "START_DEV" => bare ops .startDev
    | "STOP_DEV" => bare ops .stopDev
    | "READ_DEVID" => bare ops .readDevid
    | "READ_MEM" => assembleRead ops
    | "WRITE_MEM" => assembleWrite ops
    | "READ_CFG" => bare ops .readCfg
    | "WRITE_CFG" => (wordVals ops).map .writeCfg
    | "ERASE" => bare ops .erase
    | "ENTER" => bare ops .enter
    | "LEAVE" => bare ops .leave
    | "EXEC" => assembleExec ops
    | "REGOUT" => bare ops .regout
    | "PACK" => assemblePack ops
    | "UNPACK" => assembleUnpack ops
    | _ => none).filter Instr.wf

/-- The instruction a line of text stands for (R72), none where it is no line of that syntax. -/
def assemble (line : List Char) : Option Instr :=
  match mnemonicOf (lineName line) with
  | some m => assembleOps m (lineOperands line)
  | none => none

end Sys2Proof.Machine
end

