-- ==== Sys2Proof/Safety.lean ====
section
/-! DEFINITION. The words claims use: the line events each frame is on the wire, what the target device answers, the primitive
acts of a request and the state they leave, the control states of R110, and what a run must keep. -/

namespace Sys2Proof.Safety

open Sys2Proof.Machine

/-! ### Line events -/

/-- The two commits of a clock pulse (R81). -/
def pulseEvents (g : Signals) : List Event :=
  [.commit { g with clock := true }, .commit { g with clock := false }]

/-- `n` clock pulses. -/
def pulsesEvents (n : Nat) (g : Signals) : List Event := (List.replicate n (pulseEvents g)).flatten

/-- The three commits of each bit-out (R82), bit after bit. -/
def bitsEvents : Signals → List Bool → List Event
  | _, [] => []
  | g, b :: bs =>
    .commit { g with data := b } :: pulseEvents { g with data := b } ++ bitsEvents { g with clock := false } bs

/-- The levels after some bit-outs: data holds the last bit, the clock is low. -/
def afterBits (g : Signals) (bs : List Bool) : Signals :=
  match bs.getLast? with
  | some b => { g with data := b, clock := false }
  | none => g

/-- A SIX frame: data low, 4 or 9 padding pulses, the command's 24 bits least significant first (R66, R67, R85). -/
def sixEvents (g : Signals) (first : Bool) (c : Cmd) : List Event :=
  .commit { g with data := false } :: pulsesEvents (if first then 9 else 4) { g with data := false } ++
    bitsEvents { g with data := false, clock := false } (lsbFirst c)

/-- The levels a SIX frame leaves: data holds the command's bit 23, the clock is low (R85, R87). -/
def afterSix (g : Signals) (c : Cmd) : Signals := { g with data := c.getLsbD 23, clock := false }

/-- One sampled bit: clock high, the sample, clock low (R86). -/
def sampleEvents (g : Signals) (b : Bool) : List Event :=
  [.commit { g with clock := true }, .sample b, .commit { g with clock := false }]

/-- A REGOUT frame: a pulse with data high, data low, 11 pulses, 16 sampled bits (R68, R86). -/
def regoutEvents (g : Signals) (v : Reg16) : List Event :=
  .commit { g with data := true } :: pulseEvents { g with data := true } ++
    .commit { g with data := false, clock := false } :: pulsesEvents 11 { g with data := false } ++
      (lsbFirst v).flatMap (sampleEvents { g with data := false })

/-- The levels a REGOUT frame leaves (R87). -/
def afterRegout (g : Signals) : Signals := { g with data := false, clock := false }

/-- Power on, all else low: `0100`. -/
def powered : Signals := ⟨false, true, false, false⟩

/-- Reset high and power on: `1100`. -/
def running : Signals := ⟨true, true, false, false⟩

/-- The 105 events of ENTER (R83). -/
def enterEvents : List Event :=
  [.driverOpen, .commit powered, .commit powered, .commit running, .commit powered] ++
    bitsEvents powered (msbFirst Config.key) ++ [.commit powered, .delay 5, .commit running, .delay 30]

/-- The 3 events of LEAVE (R84). -/
def leaveEvents (g : Signals) : List Event :=
  [.commit { g with reset := false }, .commit { g with reset := false, power := false }, .driverClose]

/-- The levels on the lines after some events, `w` being those before: the last ones committed (R22). -/
def wireAfter (w : Option Signals) : List Event → Option Signals
  | [] => w
  | .commit g :: es => wireAfter (some g) es
  | .sample _ :: es => wireAfter w es
  | .delay _ :: es => wireAfter w es
  | .driverOpen :: es => wireAfter w es
  | .driverClose :: es => wireAfter w es

/-- An event is a commit. -/
def isCommit : Event → Bool
  | .commit _ => true
  | .sample _ | .delay _ | .driverOpen | .driverClose => false

/-- An event is a sample. -/
def isSample : Event → Bool
  | .sample _ => true
  | .commit _ | .delay _ | .driverOpen | .driverClose => false

/-- The five delay values (R171). -/
def delayValues : List Nat := [5, 30, 2, 25, 330]

/-- An event delays, if at all, by one of the five values (R171). -/
def delayOk : Event → Bool
  | .delay ms => delayValues.contains ms
  | .commit _ | .sample _ | .driverOpen | .driverClose => true

/-! ### What the target device answers -/

/-- The `k`-th bit sampled from now on (R5): the device's answer where one stands, and a free value after those. -/
def bitHeard (s : State) (k : Nat) : Bool := (s.sense[k]?).getD (Config.draw (s.draws + (k - s.sense.length)))

/-- The `i`-th register value read from now on: `RV = sum over i of b_i << i` of its 16 samples (R86). -/
def heard (s : State) (i : Nat) : Reg16 := ofLsbFirst 16 ((List.range 16).map fun k => bitHeard s (16 * i + k))

/-! ### The acts of a request -/

/-- A primitive act: a command sent by EXEC, a value read by REGOUT, a delay. -/
inductive Act where
  | command (first : Bool) (c : Cmd)
  | read (v : Reg16)
  | wait (ms : Nat)
deriving DecidableEq, Repr

/-- The line events of an act from given levels. -/
def Act.events (g : Signals) : Act → List Event
  | .command first c => sixEvents g first c
  | .read v => regoutEvents g v
  | .wait ms => [.delay ms]

/-- The levels an act leaves. -/
def Act.after (g : Signals) : Act → Signals
  | .command _ c => afterSix g c
  | .read _ => afterRegout g
  | .wait _ => g

/-- The act reads a register. -/
def Act.isRead : Act → Bool
  | .read _ => true
  | .command _ _ | .wait _ => false

/-- The act sends the first frame of a session (R67, R183). -/
def Act.isFirst : Act → Bool
  | .command first _ => first
  | .read _ | .wait _ => false

/-- The line events of acts one after the other (R50). -/
def actsEvents : Signals → List Act → List Event
  | _, [] => []
  | g, a :: as => a.events g ++ actsEvents (a.after g) as

/-- The levels acts leave. -/
def actsAfter : Signals → List Act → Signals
  | g, [] => g
  | g, a :: as => actsAfter (a.after g) as

/-- How many register values acts read. -/
def readsIn (as : List Act) : Nat := as.countP Act.isRead

/-- The state after acts, working registers apart: the lines, the line trace, and the device's answers used up. -/
def did (s : State) (as : List Act) : State :=
  { s with
    sig := actsAfter s.sig as
    wire := wireAfter s.wire (actsEvents s.sig as)
    trace := (actsEvents s.sig as).reverse ++ s.trace
    sense := s.sense.drop (16 * readsIn as)
    draws := s.draws + (16 * readsIn as - s.sense.length) }

/-- Commands of a script, none of them the first of a session (R125). -/
def sends (cs : List Cmd) : List Act := cs.map (.command false)

/-- The items of `G_READ`, `h` giving the values read (R132). -/
def itemActs (h : Nat → Reg16) : List Item → Nat → List Act
  | [], _ => []
  | .exec c :: is, j => .command false c :: itemActs h is j
  | .regOut :: is, j => .read (h j) :: itemActs h is (j + 1)

/-- The six registers of a group, in the order read (R132). -/
def groupRegs (h : Nat → Reg16) : Regs6 := ⟨h 0, h 1, h 2, h 3, h 4, h 5⟩

/-- The acts of `k` group reads; group after group, six values each (R131). -/
def groupsActs (sc : Scripts) : (Nat → Reg16) → Nat → List Act
  | _, 0 => []
  | h, k + 1 => itemActs h sc.gRead 0 ++ groupsActs sc (fun i => h (6 + i)) k

/-- The words of `k` group reads, group after group (R101, R131, D39). -/
def groupsWords : (Nat → Reg16) → Nat → List Word24
  | _, 0 => []
  | h, k + 1 => groupList (unpackRegs (groupRegs h)) ++ groupsWords (fun i => h (6 + i)) k

/-- The acts of a block read (R131, R133). -/
def readActs (sc : Scripts) (a : Addr24) (k : Nat) (h : Nat → Reg16) : List Act :=
  sends (setupRd sc a) ++ groupsActs sc h k

/-- The acts of READ_DEVID (R130). -/
def devidActs (sc : Scripts) (h : Nat → Reg16) : List Act :=
  sends sc.sDevid ++ (sends (setupRd sc sc.devidAddr) ++ itemActs h sc.gRead 0)

/-- `n` poll attempts, one after the other with no delay (R135, R136). -/
def pollActs (sc : Scripts) : (Nat → Reg16) → Nat → List Act
  | _, 0 => []
  | h, n + 1 => sends sc.sStatus ++ .read (h 0) :: pollActs sc (fun i => h (1 + i)) n

/-- Attempt `k`, counted from 0, is the first to see bit 15 set (R135, R136). -/
def FirstDoneAt (h : Nat → Reg16) (k : Nat) : Prop := (h k).getLsbD 15 = true ∧ ∀ j < k, (h j).getLsbD 15 = false

/-- None of the 20 attempts sees bit 15 set (R136, R163). -/
def NeverDone (h : Nat → Reg16) : Prop := ∀ j < 20, (h j).getLsbD 15 = false

/-- The load commands of write group `g` (R128): the words `D[4g..4g+3]`, PACKed, and the six registers loaded in the order
`r_0, …, r_5`, register `k` by its own template `k` (D15). -/
def groupLoads (sc : Scripts) (d : List Word24) (g : Nat) : List Cmd :=
  let r := packWords ⟨d.getD (4 * g) 0, d.getD (4 * g + 1) 0, d.getD (4 * g + 2) 0, d.getD (4 * g + 3) 0⟩
  [loadReg sc 0 r.r0, loadReg sc 1 r.r1, loadReg sc 2 r.r2, loadReg sc 3 r.r3, loadReg sc 4 r.r4, loadReg sc 5 r.r5]

/-- The commands of the write groups `g, g+1, …`, `k` of them (R128, R138). -/
def groupCmds (sc : Scripts) (d : List Word24) : Nat → Nat → List Cmd
  | 0, _ => []
  | k + 1, g => groupLoads sc d g ++ (sc.sLatch ++ groupCmds sc d k (g + 1))

/-- The acts of WRITE_MEM before its poll (R138). -/
def writeActs (sc : Scripts) (a : Addr24) (d : List Word24) : List Act :=
  sends (setupWr sc a ++ (groupCmds sc d 16 0 ++ sc.sTriggerWr)) ++ [.wait 2]

/-- The acts for one configuration word before its poll (R139). -/
def cfgWordActs (sc : Scripts) (v : Word24) : List Act := sends (sc.loadCfg v ++ sc.sTriggerCfg) ++ [.wait 25]

/-- The acts for configuration words, word `i` taking the `i`-th number of attempts (R139). -/
def cfgActs (sc : Scripts) : (Nat → Reg16) → List Word24 → List Nat → List Act
  | h, v :: vs, k :: ks => cfgWordActs sc v ++ (pollActs sc h k ++ cfgActs sc (fun i => h (k + i)) vs ks)
  | _, _, _ => []

/-- Each of the numbers is that of the attempts after which a word's poll succeeded, word after word (R136, R139). -/
def CfgPolled : (Nat → Reg16) → List Nat → Prop
  | _, [] => True
  | h, k :: ks => 1 ≤ k ∧ k ≤ 20 ∧ FirstDoneAt h (k - 1) ∧ CfgPolled (fun i => h (k + i)) ks

/-! ### Control states -/

/-- Idle (R110). -/
def Idle (s : State) : Prop := s.mode = .closed ∧ s.run = false ∧ s.drv = .released

/-- Session (R110). -/
def Session (s : State) : Prop := s.mode = .sessionOpen ∧ s.run = false ∧ s.drv = .opened

/-- Running (R110). -/
def Running (s : State) : Prop := s.mode = .closed ∧ s.run = true ∧ s.drv = .opened

/-- The control state `(MODE, RUN, DRV)` "takes exactly three values" (R110, R27). -/
def ControlOk (s : State) : Prop := Idle s ∨ Session s ∨ Running s

/-- The lines between requests in each control state, by R83, R84, R87, R113, R114: the clock is low; Idle has reset low and
power off; Session and Running have reset high and power on, committed. -/
def LinesOk (s : State) : Prop :=
  s.sig.clock = false ∧
    (s.drv = .released → s.sig.reset = false ∧ s.sig.power = false) ∧
    (s.drv = .opened → s.sig.reset = true ∧ s.sig.power = true ∧ s.wire = some s.sig)

/-- Only the host's requests stand before the block: the internal ports are ENG's alone (R80, D33). -/
def HostOnly (s : State) : Prop := ∀ x ∈ s.pending, ∃ hdr data, x = .request hdr data

/-- The bits with which the target device answers the six register reads of a group (R43, R132). -/
def regsBits (r : Regs6) : List Bool :=
  lsbFirst r.r0 ++ lsbFirst r.r1 ++ lsbFirst r.r2 ++ lsbFirst r.r3 ++ lsbFirst r.r4 ++ lsbFirst r.r5

/-- What every step keeps on a block that only its host drives (R27, R110). -/
def Inv (s : State) : Prop := ControlOk s ∧ LinesOk s ∧ HostOnly s

/-- `WIRE` is what the line trace committed last, and nothing before the first commit (R22, R36). -/
def WireOk (s : State) : Prop := s.wire = wireAfter none s.trace.reverse

/-- Every delay in the line trace is one of the five values (R171). -/
def DelaysOk (s : State) : Prop := s.trace.all delayOk = true

/-- The fields an operation does not use, and the reserved ones, are zero (R61, R62): only 3 and 4 use `A`, only 3, 4
and 6 use `N`. -/
def unusedZero (hdr : BitVec 64) : Bool :=
  hdrReservedZero hdr && (hdrOp hdr == 3 || hdrOp hdr == 4 || hdrA hdr == 0) &&
    (hdrOp hdr == 3 || hdrOp hdr == 4 || hdrOp hdr == 6 || hdrN hdr == 0)

/-- A request as R60 lets the host present it: the header's own number of data words follows. -/
def Conforms (hdr : BitVec 64) (data : List Word24) : Prop := data.length = dataWords hdr

/-- A host request of the opcode table (R61): not a word of an internal port. -/
def isRequest : Instr → Bool
  | .beginSession | .endSession | .readDevid | .readMem .. | .writeMem .. | .readCfg | .writeCfg _ | .erase
  | .startDev | .stopDev | .reservedOpAB _ | .reservedOpCF _ => true
  | .enter | .leave | .execCmd .. | .regout | .pack .. | .unpack .. | .keyFrame | .sixFrame _ | .sixFirstFrame _
  | .regoutFrame _ => false

/-- A device operation (R125). -/
def isDeviceOp : Instr → Bool
  | .readDevid | .readMem .. | .writeMem .. | .readCfg | .writeCfg _ | .erase => true
  | .beginSession | .endSession | .startDev | .stopDev | .reservedOpAB _ | .reservedOpCF _
  | .enter | .leave | .execCmd .. | .regout | .pack .. | .unpack .. | .keyFrame | .sixFrame _ | .sixFirstFrame _
  | .regoutFrame _ => false

end Sys2Proof.Safety
end

