-- ==== Sys2Proof/Certificates/Slice0/Obligations.lean ====
section
/-! DEFINITION. The statements for the provers. Each docstring names the rule of spec/ it formalises, and the log entry where a
clause rests on a choice of this model. -/

open Sys2Proof Sys2Proof.Machine Sys2Proof.Safety

/-! ### Encoding -/

/-- Decoding the word of a well-formed instruction gives the instruction: no bit of an encoding is dropped (R60 to R68). -/
def Obligations.DecodeOfEncode : Prop :=
  ∀ i : Instr, i.wf = true → decode (encode i) = .ok i

/-- The other direction for the host's port: a header and its `N` data words that decode to an instruction are that
instruction's own word, so "every 64-bit value is either exactly one operation with its operands, or IllegalRequest" (R62). -/
def Obligations.DecodedRequestReencodes : Prop :=
  ∀ (hdr : BitVec 64) (data : List Word24) (i : Instr),
    Conforms hdr data → decode (.request hdr data) = .ok i → encode i = .request hdr data ∧ isRequest i = true

/-- What a step makes of any header with its data words (R62, R71, R164, R166): a reserved operation code is answered with
IllegalRequest(IR_OPCODE) whatever the other fields are, a nonzero unused or reserved field with IllegalRequest(IR_FIELD),
and any other header is an operation. IllegalRequest emits nothing and changes nothing but `STATUS` and `FATAL`. -/
def Obligations.HeaderIsOperationOrIllegal : Prop :=
  ∀ (s : State) (hdr : BitVec 64) (data : List Word24) (rest : List PortWord),
    s.pending = .request hdr data :: rest → Conforms hdr data →
      (10 ≤ (hdrOp hdr).toNat → step s = .next ({ s with pending := rest }.raised (.illegal .opcode))) ∧
      ((hdrOp hdr).toNat < 10 → unusedZero hdr = false →
        step s = .next ({ s with pending := rest }.raised (.illegal .field))) ∧
      ((hdrOp hdr).toNat < 10 → unusedZero hdr = true → ∃ i, decode (.request hdr data) = .ok i)

/-- RESERVED_OP: IllegalRequest(IR_OPCODE) with `FATAL`, no line event, no other state changed (R71, R164). -/
def Obligations.ReservedOpIsIllegal : Prop :=
  ∀ (s : State) (r : BitVec 61) (q : BitVec 62),
    exec (.reservedOpAB r) s = .next { s with
      status := .illegalRequest, fatal := true, responses := ⟨.illegalRequest, [], some (.illegal .opcode)⟩ :: s.responses } ∧
    exec (.reservedOpCF q) s = .next { s with
      status := .illegalRequest, fatal := true, responses := ⟨.illegalRequest, [], some (.illegal .opcode)⟩ :: s.responses }

/-- Words written out from the encodings of R60 to R68 decode to their instructions. -/
def Obligations.SpecWordsDecode : Prop :=
  decode (.request 0x3008000000012345 []) = .ok (.readMem 0x012345 8) ∧
  decode (.request 0x7000000000000000 []) = .ok .erase ∧
  decode (.request 0x9000000000000000 []) = .ok .stopDev ∧
  decode (.request 0x0000000000000001 []) = .error .irField ∧
  decode (.primitive 0x81000001) = .ok (.execCmd true 0x000001) ∧
  decode (.primitive 0xC0000000) = .ok .regout

/-- "The source's own names are aliases" (R72): a line that opens with an alias assembles to what the line with the mnemonic
assembles to, whatever follows the name (blanks and comments are this model's, log 22). -/
def Obligations.AliasesAssembleAlike : Prop :=
  ∀ p ∈ aliases, ∀ rest : List Char, (∀ c ∈ rest.head?, isBlank c = true ∨ c = ';') →
    assemble (p.2.toList ++ rest) = assemble (p.1.toList ++ rest)

/-! ### Steps -/

/-- When the oldest pending word decodes to an instruction, a step takes the word and runs that instruction (R28, R50,
R181; that requests stand in a queue is this model's, log 6). -/
def Obligations.StepRunsDecoded : Prop :=
  ∀ (s : State) (x : PortWord) (rest : List PortWord) (i : Instr),
    s.pending = x :: rest → decode x = .ok i → step s = exec i { s with pending := rest }

/-- A word of the opcode table that decodes to an instruction is run by the very next step, whatever else is pending (the
presentation of a single word is this model's, log 8, log 11). -/
def Obligations.TableWordRunsNext : Prop :=
  ∀ (s : State) (nbits w : Nat) (i : Instr), decodeTableWord nbits w = some i → step (s.withFetchWord nbits w) = exec i s

/-- "Between requests it is idle and holds its state" (R172; that such a step is a step is this model's, log 6). -/
def Obligations.IdleStepHoldsState : Prop :=
  ∀ s : State, s.pending = [] → step s = .next s

/-- Words that the ports cannot carry are refused by name and nothing else is (the refusals are this model's, log 7,
log 17): a legal header with another number of data words, a primitive word with nonzero reserved fields, unknown wire
bits. -/
def Obligations.UnpresentableWordsRefused : Prop :=
  ∀ (s : State) (x : PortWord) (rest : List PortWord), s.pending = x :: rest →
    (decode x = .error .dataCount → step s = .refused .malformedPacket) ∧
    (decode x = .error .reservedPrimitive → step s = .refused .reservedPrimitive) ∧
    (decode x = .error .unknownFrame → step s = .refused .unknownFrame) ∧
    (∀ r, step s = .refused r →
      decode x = .error .dataCount ∨ decode x = .error .reservedPrimitive ∨ decode x = .error .unknownFrame)

/-- The state after block reset, where the spec gives a value (R36, R180). -/
def Obligations.ResetIsIdle : Prop :=
  State.reset.sig = ⟨false, false, false, false⟩ ∧ State.reset.wire = none ∧ State.reset.drv = .released ∧
  State.reset.mode = .closed ∧ State.reset.run = false ∧ State.reset.status.code = 0 ∧ State.reset.fatal = false ∧
  State.reset.trace = []

/-! ### The Sequencer -/

/-- ENTER (R83): from a released driver its 105 events, `DRV` open and all levels at 1100; on an open driver it raises
PV_DRIVER_OPEN before any event. `BITCNT`'s value is left open here (log 13). -/
def Obligations.EnterEffect : Prop :=
  ∀ s : State,
    (s.drv = .released → ∃ k, exec .enter s = .next { s with
      drv := .opened, sig := ⟨true, true, false, false⟩, wire := some ⟨true, true, false, false⟩, bitcnt := k
      trace := enterEvents.reverse ++ s.trace }) ∧
    (s.drv = .opened → seqEnter.run s = .error (.violation .driverOpen) s)

/-- LEAVE (R84): reset low, then power off, then the driver closed; data and clock keep their levels. On a released driver
it raises PV_DRIVER_CLOSED before any event. -/
def Obligations.LeaveEffect : Prop :=
  ∀ s : State,
    (s.drv = .opened → exec .leave s = .next { s with
      drv := .released, sig := { s.sig with reset := false, power := false }
      wire := some { s.sig with reset := false, power := false }
      trace := .driverClose :: .commit { s.sig with reset := false, power := false } ::
        .commit { s.sig with reset := false } :: s.trace }) ∧
    (s.drv = .released → seqLeave.run s = .error (.violation .driverClosed) s)

/-- EXEC (R85): the SIX frame of `c`, `CMDSR` and `FIRST` loaded, data left at bit 23, clock low, reset and power untouched.
On a released driver it raises PV_DRIVER_CLOSED before any event. `BITCNT`'s value is left open here (log 13). -/
def Obligations.ExecEffect : Prop :=
  ∀ (s : State) (c : Cmd) (first : Bool),
    (s.drv = .opened → ∃ k, exec (.execCmd first c) s = .next { s with
      cmdsr := c, first := first, bitcnt := k, sig := { s.sig with data := c.getLsbD 23, clock := false }
      wire := some { s.sig with data := c.getLsbD 23, clock := false }
      trace := (sixEvents s.sig first c).reverse ++ s.trace }) ∧
    (s.drv = .released → (seqExec c first).run s = .error (.violation .driverClosed) s)

/-- REGOUT (R86): the REGOUT frame; `RV` is assembled from the 16 bits the device drives, the first least significant.
On a released driver it raises PV_DRIVER_CLOSED before any event. `BITCNT`'s value is left open here (log 13). -/
def Obligations.RegoutEffect : Prop :=
  ∀ s : State,
    (s.drv = .opened → ∃ k, exec .regout s = .next { s with
      rv := heard s 0, bitcnt := k, sig := { s.sig with data := false, clock := false }
      wire := some { s.sig with data := false, clock := false }
      trace := (regoutEvents s.sig (heard s 0)).reverse ++ s.trace
      sense := s.sense.drop 16, draws := s.draws + (16 - s.sense.length) }) ∧
    (s.drv = .released → seqRegout.run s = .error (.violation .driverClosed) s)

/-- REGOUT returns exactly what the device drives: if its next 16 answers are the bits of `v`, least significant first,
`RV` is `v` (R43, R86), and no free value is drawn (log 1). -/
def Obligations.RegoutReturnsAnswer : Prop :=
  ∀ (s : State) (v : Reg16) (rest : List Bool), s.drv = .opened → s.sense = Machine.lsbFirst v ++ rest →
    ∃ t, exec .regout s = .next t ∧ t.rv = v ∧ t.sense = rest ∧ t.draws = s.draws

/-- A primitive run alone on a driver in the wrong state is answered with its PreconditionViolation (R80, R162), and
`STATUS` and `FATAL` are all that changes; that a primitive run alone makes a response is this model's (log 8, log 9). -/
def Obligations.PrimitivesCheckDriver : Prop :=
  ∀ (s : State) (c : Cmd) (first : Bool) (r : Reg16),
    (s.drv = .opened → exec .enter s = .next (s.raised (.violation .driverOpen))) ∧
    (s.drv = .released →
      exec .leave s = .next (s.raised (.violation .driverClosed)) ∧
      exec (.execCmd first c) s = .next (s.raised (.violation .driverClosed)) ∧
      exec .regout s = .next (s.raised (.violation .driverClosed)) ∧
      exec .keyFrame s = .next (s.raised (.violation .driverClosed)) ∧
      exec (.sixFrame c) s = .next (s.raised (.violation .driverClosed)) ∧
      exec (.sixFirstFrame c) s = .next (s.raised (.violation .driverClosed)) ∧
      exec (.regoutFrame r) s = .next (s.raised (.violation .driverClosed)))

/-- The table of R87, its event counts and the line levels at the end, on the wire as well as pending (R22): ENTER on a
released driver, the others on an open one, whatever the levels before. LEAVE keeps the clock, so it ends with it low where it
began so. -/
def Obligations.PrimitiveEventCounts : Prop :=
  ∀ (s : State) (c : Cmd),
    (s.drv = .released → ∃ t evs, exec .enter s = .next t ∧ t.trace = evs ++ s.trace ∧ evs.length = 105 ∧
      evs.countP isCommit = 102 ∧ evs.countP isSample = 0 ∧ evs.count (.delay 5) = 1 ∧ evs.count (.delay 30) = 1 ∧
      evs.count .driverOpen = 1 ∧ t.sig = ⟨true, true, false, false⟩ ∧ t.wire = some t.sig) ∧
    (s.drv = .opened →
      (∃ t evs, exec .leave s = .next t ∧ t.trace = evs ++ s.trace ∧ evs.length = 3 ∧ evs.countP isCommit = 2 ∧
        evs.count .driverClose = 1 ∧ t.sig = ⟨false, false, s.sig.data, s.sig.clock⟩ ∧ t.wire = some t.sig ∧
        (s.sig.clock = false → t.sig.clock = false)) ∧
      (∃ t evs, exec (.execCmd false c) s = .next t ∧ t.trace = evs ++ s.trace ∧ evs.length = 81 ∧
        evs.countP isCommit = 81 ∧ t.sig = ⟨s.sig.reset, s.sig.power, c.getLsbD 23, false⟩ ∧ t.wire = some t.sig) ∧
      (∃ t evs, exec (.execCmd true c) s = .next t ∧ t.trace = evs ++ s.trace ∧ evs.length = 91 ∧
        evs.countP isCommit = 91 ∧ t.sig = ⟨s.sig.reset, s.sig.power, c.getLsbD 23, false⟩ ∧ t.wire = some t.sig) ∧
      (∃ t evs, exec .regout s = .next t ∧ t.trace = evs ++ s.trace ∧ evs.length = 74 ∧
        evs.countP isCommit = 58 ∧ evs.countP isSample = 16 ∧ t.sig = ⟨s.sig.reset, s.sig.power, false, false⟩ ∧
        t.wire = some t.sig))

/-- The wire frames on an open driver: the KEY frame is the 32 bit-outs of the key (R65), a SIX frame is EXEC with
`FIRST = 0` (R66), a first SIX frame EXEC with `FIRST = 1` (R67), a REGOUT frame a REGOUT that reads the frame's sensed bits
(R68). That a frame stands alone, and what it does then, is this model's (log 10); `BITCNT`'s value is left open (log 13). -/
def Obligations.FramesAsOriginated : Prop :=
  ∀ (s : State) (c : Cmd) (r : Reg16), s.drv = .opened →
    (∃ k, exec .keyFrame s = .next { s with
      bitcnt := k, sig := { s.sig with data := true, clock := false }
      wire := some { s.sig with data := true, clock := false }
      trace := (bitsEvents s.sig (msbFirst Config.key)).reverse ++ s.trace }) ∧
    (∃ k, exec (.sixFrame c) s = .next { s with
      cmdsr := c, first := false, bitcnt := k, sig := { s.sig with data := c.getLsbD 23, clock := false }
      wire := some { s.sig with data := c.getLsbD 23, clock := false }
      trace := (sixEvents s.sig false c).reverse ++ s.trace }) ∧
    (∃ k, exec (.sixFirstFrame c) s = .next { s with
      cmdsr := c, first := true, bitcnt := k, sig := { s.sig with data := c.getLsbD 23, clock := false }
      wire := some { s.sig with data := c.getLsbD 23, clock := false }
      trace := (sixEvents s.sig true c).reverse ++ s.trace }) ∧
    (∃ k, exec (.regoutFrame r) s = .next { s with
      rv := r, bitcnt := k, sig := { s.sig with data := false, clock := false }
      wire := some { s.sig with data := false, clock := false }
      trace := (regoutEvents s.sig r).reverse ++ s.trace })

/-! ### The Word Codec -/

/-- PACK (R100), by the source's formulas, and nothing of the block's state changes (R104; the output side is this model's
field, log 12). -/
def Obligations.PackFormulas : Prop :=
  ∀ (s : State) (w0 w1 w2 w3 : Word24), ∃ r : Regs6,
    exec (.pack w0 w1 w2 w3) s = .next { s with codecOut := some (.regs r) } ∧
    r.r0.toNat = w0.toNat % 65536 ∧ r.r1.toNat = w1.toNat / 65536 * 256 + w0.toNat / 65536 ∧
    r.r2.toNat = w1.toNat % 65536 ∧ r.r3.toNat = w2.toNat % 65536 ∧
    r.r4.toNat = w3.toNat / 65536 * 256 + w2.toNat / 65536 ∧ r.r5.toNat = w3.toNat % 65536

/-- UNPACK (R101), by the source's formulas, and nothing of the block's state changes (R104; log 12). -/
def Obligations.UnpackFormulas : Prop :=
  ∀ (s : State) (r0 r1 r2 r3 r4 r5 : Reg16), ∃ w : Group,
    exec (.unpack r0 r1 r2 r3 r4 r5) s = .next { s with codecOut := some (.words w) } ∧
    w.w0.toNat = r0.toNat + r1.toNat % 256 * 65536 ∧ w.w1.toNat = r2.toNat + r1.toNat / 256 * 65536 ∧
    w.w2.toNat = r3.toNat + r4.toNat % 256 * 65536 ∧ w.w3.toNat = r5.toNat + r4.toNat / 256 * 65536

/-- PACK and UNPACK are inverse to each other, both ways (R102). -/
def Obligations.CodecRoundTrips : Prop :=
  (∀ g : Group, unpackRegs (packWords g) = g) ∧ (∀ r : Regs6, packWords (unpackRegs r) = r)

/-! ### Session control -/

/-- BEGIN (R111): from Idle, ENTER's events and the first SIX frame of `CMD_NOP`, into Session; refused in Session with
PV_SESSION_OPEN and in Running with PV_RUNNING, with nothing emitted. SEQ's working registers are left unspecified (R29;
log 4). -/
def Obligations.BeginEffect : Prop :=
  ∀ s : State,
    (Idle s → exec .beginSession s = .next (State.returned (State.freeSeq { s with
      drv := .opened, mode := .sessionOpen, sig := afterSix running Config.scripts.cmdNop
      wire := some (afterSix running Config.scripts.cmdNop)
      trace := (enterEvents ++ sixEvents running true Config.scripts.cmdNop).reverse ++ s.trace }) [])) ∧
    (s.mode = .sessionOpen → exec .beginSession s = .next (s.raised (.violation .sessionOpen))) ∧
    (s.mode = .closed → s.run = true → exec .beginSession s = .next (s.raised (.violation .running)))

/-- END (R112): from Session, LEAVE's events, into Idle; refused without a session, Running among them, with
PV_NO_SESSION. -/
def Obligations.EndEffect : Prop :=
  ∀ s : State,
    (Session s → exec .endSession s = .next (State.returned { s with
      drv := .released, mode := .closed, sig := { s.sig with reset := false, power := false }
      wire := some { s.sig with reset := false, power := false }, trace := (leaveEvents s.sig).reverse ++ s.trace } [])) ∧
    (s.mode = .closed → exec .endSession s = .next (s.raised (.violation .noSession)))

/-- START_DEV (R113): from Idle, the driver opened and one commit that raises power and reset, data and clock low, into
Running; refused in Session with PV_SESSION_OPEN and in Running with PV_RUNNING. -/
def Obligations.StartDevEffect : Prop :=
  ∀ s : State,
    (Idle s → exec .startDev s = .next (State.returned { s with
      drv := .opened, run := true, sig := ⟨true, true, false, false⟩, wire := some ⟨true, true, false, false⟩
      trace := .commit ⟨true, true, false, false⟩ :: .driverOpen :: s.trace } [])) ∧
    (s.mode = .sessionOpen → exec .startDev s = .next (s.raised (.violation .sessionOpen))) ∧
    (s.mode = .closed → s.run = true → exec .startDev s = .next (s.raised (.violation .running)))

/-- STOP_DEV (R114): from Running, one commit that lowers power and reset, the driver closed, into Idle; refused with
PV_NOT_RUNNING unless the block is Running. -/
def Obligations.StopDevEffect : Prop :=
  ∀ s : State,
    (Running s → exec .stopDev s = .next (State.returned { s with
      drv := .released, run := false, sig := { s.sig with reset := false, power := false }
      wire := some { s.sig with reset := false, power := false }
      trace := .driverClose :: .commit { s.sig with reset := false, power := false } :: s.trace } [])) ∧
    (s.run = false → exec .stopDev s = .next (s.raised (.violation .notRunning)))

/-! ### Device operations -/

/-- Every device operation without a session is refused with PV_NO_SESSION, whatever its operands (R125, R162, R166):
nothing but `STATUS` and `FATAL` changes. -/
def Obligations.DeviceOpsNeedSession : Prop :=
  ∀ (s : State) (i : Instr), isDeviceOp i = true → s.mode = .closed →
    exec i s = .next (s.raised (.violation .noSession))

/-- The operand shapes of R46: any other count is refused with PV_COUNT before any event, whatever the address. -/
def Obligations.CountsAreChecked : Prop :=
  ∀ (s : State) (a : Addr24), s.mode = .sessionOpen →
    (∀ n : BitVec 7, n.toNat = 0 ∨ n.toNat % 4 ≠ 0 ∨ 64 < n.toNat →
      exec (.readMem a n) s = .next (s.raised (.violation .count))) ∧
    (∀ d : List Word24, d.length ≠ 64 → exec (.writeMem a d) s = .next (s.raised (.violation .count))) ∧
    (∀ d : List Word24, d.length ≠ 12 → exec (.writeCfg d) s = .next (s.raised (.violation .count)))

/-- READ_MEM in Session (R131): the address load once, `N/4` group reads, and the `N` words they decode to, in group
order. A read's working registers are left unspecified (R29 to R31; log 4). -/
def Obligations.ReadMemEffect : Prop :=
  ∀ (s : State) (a : Addr24) (n : BitVec 7), Session s → 0 < n.toNat → n.toNat % 4 = 0 → n.toNat ≤ 64 →
    exec (.readMem a n) s = .next (State.returned
      (State.freeRead (did s (readActs Config.scripts a (n.toNat / 4) (heard s))))
      (groupsWords (heard s) (n.toNat / 4))) ∧
    (groupsWords (heard s) (n.toNat / 4)).length = n.toNat

/-- READ_CFG in Session (R133): three group reads from 0xF80000, twelve words (log 4 for the working registers). -/
def Obligations.ReadCfgEffect : Prop :=
  ∀ s : State, Session s →
    exec .readCfg s = .next (State.returned
      (State.freeRead (did s (readActs Config.scripts 0xF80000 3 (heard s)))) (groupsWords (heard s) 3)) ∧
    (groupsWords (heard s) 3).length = 12

/-- "READ_CFG is exactly `READ_MEM CFG_BASE, 12`" (R133), in every state. -/
def Obligations.ReadCfgIsReadMem : Prop :=
  ∀ s : State, exec .readCfg s = exec (.readMem 0xF80000 12) s

/-- READ_DEVID in Session (R130): `S_DEVID`, the load of `DEVID_ADDR`, one group read, and its first two words unmodified
(log 4 for the working registers). -/
def Obligations.ReadDevidEffect : Prop :=
  ∀ s : State, Session s →
    exec .readDevid s = .next (State.returned (State.freeRead (did s (devidActs Config.scripts (heard s))))
      [(unpackRegs (groupRegs (heard s))).w0, (unpackRegs (groupRegs (heard s))).w1])

/-- READ_MEM returns what the device answers: if its answers are the registers `rs`, group after group, the words are
their UNPACKs in order (R43, R101, R131, R132). -/
def Obligations.ReadMemReturnsAnswers : Prop :=
  ∀ (s : State) (a : Addr24) (n : BitVec 7) (rs : List Regs6) (rest : List Bool),
    Session s → 0 < n.toNat → n.toNat ≤ 64 → n.toNat = 4 * rs.length → s.sense = rs.flatMap regsBits ++ rest →
      ∃ t, exec (.readMem a n) s = .next t ∧
        t.responses = ⟨.ok, rs.flatMap fun r => groupList (unpackRegs r), none⟩ :: s.responses ∧ t.sense = rest

/-- The line trace of a READ_MEM "is therefore the same function of `(a, count)` every time it runs, whatever ran before it"
(R49): from two sessions in which the device answers alike, the same events are emitted. -/
def Obligations.ReadTraceRepeats : Prop :=
  ∀ (s s' : State) (a : Addr24) (n : BitVec 7), Session s → Session s' → LinesOk s → LinesOk s' →
    0 < n.toNat → n.toNat % 4 = 0 → n.toNat ≤ 64 → (∀ i, heard s i = heard s' i) →
      ∃ t t' evs, exec (.readMem a n) s = .next t ∧ exec (.readMem a n) s' = .next t' ∧
        t.trace = evs ++ s.trace ∧ t'.trace = evs ++ s'.trace

/-- The block's half of the source's write and read identity (§8, test S8): if the device answers a 64-word read with the
registers that PACK made of a 64-word block, the read returns the block. -/
def Obligations.EchoedBlockReadsBack : Prop :=
  ∀ (s : State) (a : Addr24) (d : List Word24) (rest : List Bool), Session s → d.length = 64 →
    s.sense = ((List.range 16).flatMap fun g => regsBits (packWords (groupOf d g))) ++ rest →
      ∃ t, exec (.readMem a 64) s = .next t ∧ t.responses = ⟨.ok, d, none⟩ :: s.responses ∧ t.sense = rest

/-- WRITE_MEM in Session with 64 words (R128, R138): the address load, sixteen groups of six register loads and a latch,
the trigger, 2 ms, and the poll. It returns at the first attempt that sees bit 15 set, and otherwise raises WriteTimeout
after exactly 20 attempts (R136, R137, R163). `groupLoads` names the six loads one by one, in the order r0 to r5 (D15). A
write's working registers are left unspecified (log 4). -/
def Obligations.WriteMemEffect : Prop :=
  ∀ (s : State) (a : Addr24) (d : List Word24), Session s → d.length = 64 →
    (∀ k < 20, FirstDoneAt (heard s) k → exec (.writeMem a d) s = .next (State.returned (State.freeWrite
      (did s (writeActs Config.scripts a d ++ pollActs Config.scripts (heard s) (k + 1)))) [])) ∧
    (NeverDone (heard s) → exec (.writeMem a d) s = .next (State.raised (State.freeWrite
      (did s (writeActs Config.scripts a d ++ pollActs Config.scripts (heard s) 20))) (.blockTimeout 20)))

/-- WRITE_CFG in Session with 12 words, every poll a success (R139): the address load once, and each word loaded,
triggered, settled for 25 ms and polled (log 4 for the working registers). -/
def Obligations.WriteCfgEffect : Prop :=
  ∀ (s : State) (d : List Word24) (ks : List Nat), Session s → d.length = 12 → ks.length = 12 →
    CfgPolled (heard s) ks →
      exec (.writeCfg d) s = .next (State.returned (State.freeWrite
        (did s (sends (Config.scripts.sSetupCfgw 0xF80000) ++ cfgActs Config.scripts (heard s) d ks))) [])

/-- WRITE_CFG whose poll times out at word `i` (R139, R141, R163): the words before it are written, it is triggered and
polled 20 times, no later word is sent, and WriteTimeout names it (log 4 for the working registers). -/
def Obligations.WriteCfgTimesOut : Prop :=
  ∀ (s : State) (d : List Word24) (ks : List Nat) (v : Word24), Session s → d.length = 12 → ks.length < 12 →
    d[ks.length]? = some v → CfgPolled (heard s) ks → NeverDone (fun j => heard s (ks.sum + j)) →
      exec (.writeCfg d) s = .next (State.raised (State.freeWrite
        (did s (sends (Config.scripts.sSetupCfgw 0xF80000) ++
          (cfgActs Config.scripts (heard s) (d.take ks.length) ks ++ (cfgWordActs Config.scripts v ++
            pollActs Config.scripts (fun j => heard s (ks.sum + j)) 20))))) (.cfgTimeout ks.length 20))

/-- ERASE in Session (R140): its two scripts and 330 ms, no register read and so no WriteTimeout. SEQ's working registers
are left unspecified (log 4). -/
def Obligations.EraseEffect : Prop :=
  ∀ s : State, Session s →
    exec .erase s = .next (State.returned (State.freeSeq
      (did s (sends (Config.scripts.sErase ++ Config.scripts.sEraseTrigger) ++ [.wait 330]))) [])

/-- The trace formulas of R131, R138 and R140: how many line events READ_MEM, WRITE_MEM with `k + 1` attempts, and ERASE
emit. -/
def Obligations.TraceLengths : Prop :=
  ∀ (s : State) (a : Addr24), Session s →
    (∀ n : BitVec 7, 0 < n.toNat → n.toNat % 4 = 0 → n.toNat ≤ 64 → ∃ t, exec (.readMem a n) s = .next t ∧
      t.trace.length = s.trace.length + 81 * (setupRd Config.scripts a).length +
        n.toNat / 4 * (81 * (Config.scripts.gRead.length - 6) + 6 * 74)) ∧
    (∀ (d : List Word24) (k : Nat), d.length = 64 → k < 20 → FirstDoneAt (heard s) k →
      ∃ t, exec (.writeMem a d) s = .next t ∧
        t.trace.length = s.trace.length + 81 * ((setupWr Config.scripts a).length +
          16 * (6 + Config.scripts.sLatch.length) + Config.scripts.sTriggerWr.length) + 1 +
          (k + 1) * (81 * Config.scripts.sStatus.length + 74)) ∧
    (∃ t, exec .erase s = .next t ∧
      t.trace.length = s.trace.length + 81 * (Config.scripts.sErase.length + Config.scripts.sEraseTrigger.length) + 1)

/-- The register-load command of a well-formed record (R9, R127): the value stands whole in its field, and the bits
outside the field are the template's. -/
def Obligations.LoadCommandHoldsValue : Prop :=
  ∀ (sc : Scripts) (k : Fin 6) (v : Reg16), sc.Wf →
    (∀ i < 16, (loadReg sc k v).getLsbD (sc.shLoadreg + i) = v.getLsbD i) ∧
    (∀ i < 24, (i < sc.shLoadreg ∨ sc.shLoadreg + 16 ≤ i) →
      (loadReg sc k v).getLsbD i = (sc.tplLoadreg k).getLsbD i)

/-- Only BEGIN sends the first frame of a session (R183): whatever a device operation emits is the events of acts none of
which carries the extra padding clocks. -/
def Obligations.DeviceOpsSendNoFirstFrame : Prop :=
  ∀ (s t : State) (i : Instr), ControlOk s → isDeviceOp i = true → exec i s = .next t →
    ∃ as : List Act, (∀ a ∈ as, a.isFirst = false) ∧ t.trace = (actsEvents s.sig as).reverse ++ s.trace

/-! ### Responses and errors -/

/-- Every host request makes exactly one response, which `STATUS` shows; `FATAL` is set by a PreconditionViolation or an
IllegalRequest, and never cleared; an error delivers no data (R6, R32, R33, R161). -/
def Obligations.ResponseStatusFatal : Prop :=
  ∀ (s t : State) (i : Instr), isRequest i = true → exec i s = .next t →
    ∃ r : Response, t.responses = r :: s.responses ∧ t.status = r.status ∧
      (r.info = none ↔ r.status = .ok) ∧ (r.status ≠ .ok → r.data = []) ∧
      t.fatal = (s.fatal || r.status == .preconditionViolation || r.status == .illegalRequest)

/-- "A PreconditionViolation is always raised before the request's first line event. It changes no state but `STATUS` and
`FATAL`" (R162), in every control state of R110. -/
def Obligations.ViolationChangesNothingElse : Prop :=
  ∀ (s t : State) (i : Instr), ControlOk s → isRequest i = true → exec i s = .next t →
    t.status = .preconditionViolation → ∃ c, t = s.raised (.violation c)

/-- WriteTimeout comes from WRITE_MEM and WRITE_CFG only, sets no `FATAL`, and leaves the block in Session (R163, R110). -/
def Obligations.TimeoutOnlyFromWrites : Prop :=
  ∀ (s t : State) (i : Instr), ControlOk s → isRequest i = true → exec i s = .next t → t.status = .writeTimeout →
    ((∃ a d, i = .writeMem a d) ∨ (∃ d, i = .writeCfg d)) ∧ t.fatal = s.fatal ∧ Session t

/-- No host request stops the block: whatever header the host presents with its data words, the step answers it with one
response and takes the next request next (R5, R6, R62, R167). -/
def Obligations.EveryRequestIsAnswered : Prop :=
  ∀ (s : State) (hdr : BitVec 64) (data : List Word24) (rest : List PortWord),
    s.pending = .request hdr data :: rest → Conforms hdr data →
      ∃ t r, step s = .next t ∧ t.pending = rest ∧ t.responses = r :: s.responses ∧ t.status = r.status

/-! ### Invariants -/

/-- The control invariants of R27 and R110, with the line levels the control states imply (R83, R84, R113, R114), are kept
by every step of a block that only its host drives. -/
def Obligations.StepKeepsControl : Prop :=
  ∀ s t : State, Inv s → step s = .next t → Inv t

/-- The base case of StepKeepsControl: the state after block reset meets its invariant (ResetIsIdle gives the values). -/
def Obligations.ResetControl : Prop := Inv State.reset

/-- `WIRE` is what the line trace committed last: only `commit` writes it (R22), in every state and for every word. -/
def Obligations.StepKeepsWire : Prop :=
  ∀ s t : State, WireOk s → step s = .next t → WireOk t

/-- The base case of StepKeepsWire: after block reset `WIRE` and the line trace agree (ResetIsIdle gives the values). -/
def Obligations.ResetWire : Prop := WireOk State.reset

/-- The five delay values and no others are ever waited for (R171). -/
def Obligations.StepKeepsDelays : Prop :=
  ∀ s t : State, DelaysOk s → step s = .next t → DelaysOk t

/-- The base case of StepKeepsDelays: the line trace after block reset meets its invariant (ResetIsIdle says it is empty). -/
def Obligations.ResetDelays : Prop := DelaysOk State.reset

/-- Events and responses are only ever added, after all earlier ones (R50, R167), and the queue only loses its oldest
word (log 6). -/
def Obligations.StepOnlyAdds : Prop :=
  ∀ s t : State, step s = .next t →
    (∃ evs, t.trace = evs ++ s.trace) ∧ (∃ rs, t.responses = rs ++ s.responses ∧ rs.length ≤ 1) ∧
      t.pending = s.pending.tail

/-- `FATAL` is sticky: no step clears it (R33). -/
def Obligations.FatalIsSticky : Prop :=
  ∀ s t : State, s.fatal = true → step s = .next t → t.fatal = true

/-! ### Operands -/

/-- The address split (R42, R70) as the address load passes it (R126): whatever the script record, a read and a flash write
give their scripts `hi = a[23:16]` and `lo = a[15:0]`. -/
def Obligations.AddressSplit : Prop :=
  ∀ (sc : Scripts) (a : Addr24), ∃ (hi : BitVec 8) (lo : BitVec 16),
    hi.toNat = a.toNat / 65536 ∧ lo.toNat = a.toNat % 65536 ∧
    setupRd sc a = sc.sSetupRd hi lo ∧ setupWr sc a = sc.sSetupWr hi lo
end

