-- ==== Sys2Proof/Laws/Bits.lean ====
section
/-! SUPPORT. The bit orders of Machine/Bits.lean and their inverse. -/

namespace Sys2Proof.Laws

open Sys2Proof.Machine

@[simp] theorem lsbFirst_length {n : Nat} (v : BitVec n) : (lsbFirst v).length = n := by
  simp [lsbFirst]

@[simp] theorem msbFirst_length {n : Nat} (v : BitVec n) : (msbFirst v).length = n := by
  simp [msbFirst]

theorem lsbFirst_getElem? {n : Nat} (v : BitVec n) (i : Nat) (h : i < n) : (lsbFirst v)[i]? = some (v.getLsbD i) := by
  simp [lsbFirst, h]

/-- The bits of `natOfBits` are the list's. -/
theorem testBit_natOfBits (bs : List Bool) (i : Nat) : (natOfBits bs).testBit i = (bs[i]?).getD false := by
  induction bs generalizing i with
  | nil => simp [natOfBits]
  | cons b bs ih =>
    cases i with
    | zero => cases b <;> simp [natOfBits, Nat.testBit_zero]
    | succ i =>
      have h : (natOfBits (b :: bs)) / 2 = natOfBits bs := by
        cases b
        · simp [natOfBits]
        · simp only [natOfBits, Bool.toNat_true]
          omega
      rw [Nat.testBit_succ, h, ih]
      simp

/-- Bit `i` of a vector assembled least significant bit first is the `i`-th of the list. -/
theorem getLsbD_ofLsbFirst (n : Nat) (bs : List Bool) (i : Nat) :
    (ofLsbFirst n bs).getLsbD i = (decide (i < n) && (bs[i]?).getD false) := by
  simp [ofLsbFirst, BitVec.getLsbD_ofNat, testBit_natOfBits]

/-- Assembling the bits of a vector in its own order gives the vector. -/
@[simp] theorem ofLsbFirst_lsbFirst {n : Nat} (v : BitVec n) : ofLsbFirst n (lsbFirst v) = v := by
  apply BitVec.eq_of_getLsbD_eq
  intro i hi
  rw [getLsbD_ofLsbFirst, lsbFirst_getElem? v i hi]
  simp [hi]

/-- The bits of an assembled vector are the list, when it has the vector's length. -/
theorem lsbFirst_ofLsbFirst {n : Nat} (bs : List Bool) (h : bs.length = n) : lsbFirst (ofLsbFirst n bs) = bs := by
  apply List.ext_getElem?
  intro i
  by_cases hi : i < n
  · rw [lsbFirst_getElem? _ i hi, getLsbD_ofLsbFirst, List.getElem?_eq_getElem (by omega)]
    simp [hi]
  · rw [List.getElem?_eq_none (by simp; omega), List.getElem?_eq_none (by omega)]

/-- Reading a bit that was just written, and any other bit. -/
theorem getLsbD_writeBit {n : Nat} (v : BitVec n) (i : Nat) (b : Bool) (j : Nat) (hj : j < n) :
    (writeBit v i b).getLsbD j = if j = i then b else v.getLsbD j := by
  unfold writeBit
  cases b <;> by_cases hji : j = i <;> simp [BitVec.getLsbD_twoPow, hj, hji] <;> grind

end Sys2Proof.Laws
end

