-- ==== Sys2Proof/Laws/State.lean ====
section
/-! SUPPORT. One lemma per field for each update of a whole state: how a request ends, and the state after acts. -/

namespace Sys2Proof.Laws

open Sys2Proof.Machine Sys2Proof.Safety


@[simp] theorem raised_sig (s : State) (e : Err) : (s.raised e).sig = s.sig := rfl
@[simp] theorem raised_wire (s : State) (e : Err) : (s.raised e).wire = s.wire := rfl
@[simp] theorem raised_drv (s : State) (e : Err) : (s.raised e).drv = s.drv := rfl
@[simp] theorem raised_mode (s : State) (e : Err) : (s.raised e).mode = s.mode := rfl
@[simp] theorem raised_run (s : State) (e : Err) : (s.raised e).run = s.run := rfl
@[simp] theorem raised_status (s : State) (e : Err) : (s.raised e).status = e.status := rfl
@[simp] theorem raised_fatal (s : State) (e : Err) : (s.raised e).fatal = (s.fatal || e.setsFatal) := rfl
@[simp] theorem raised_cmdsr (s : State) (e : Err) : (s.raised e).cmdsr = s.cmdsr := rfl
@[simp] theorem raised_first (s : State) (e : Err) : (s.raised e).first = s.first := rfl
@[simp] theorem raised_rv (s : State) (e : Err) : (s.raised e).rv = s.rv := rfl
@[simp] theorem raised_bitcnt (s : State) (e : Err) : (s.raised e).bitcnt = s.bitcnt := rfl
@[simp] theorem raised_w (s : State) (e : Err) : (s.raised e).w = s.w := rfl
@[simp] theorem raised_r (s : State) (e : Err) : (s.raised e).r = s.r := rfl
@[simp] theorem raised_grp (s : State) (e : Err) : (s.raised e).grp = s.grp := rfl
@[simp] theorem raised_polln (s : State) (e : Err) : (s.raised e).polln = s.polln := rfl
@[simp] theorem raised_cfgi (s : State) (e : Err) : (s.raised e).cfgi = s.cfgi := rfl
@[simp] theorem raised_item (s : State) (e : Err) : (s.raised e).item = s.item := rfl
@[simp] theorem raised_pending (s : State) (e : Err) : (s.raised e).pending = s.pending := rfl
@[simp] theorem raised_responses (s : State) (e : Err) : (s.raised e).responses = ⟨e.status, [], some e⟩ :: s.responses := rfl
@[simp] theorem raised_trace (s : State) (e : Err) : (s.raised e).trace = s.trace := rfl
@[simp] theorem raised_codecOut (s : State) (e : Err) : (s.raised e).codecOut = s.codecOut := rfl
@[simp] theorem raised_sense (s : State) (e : Err) : (s.raised e).sense = s.sense := rfl
@[simp] theorem raised_draws (s : State) (e : Err) : (s.raised e).draws = s.draws := rfl
@[simp] theorem raised_frees (s : State) (e : Err) : (s.raised e).frees = s.frees := rfl

@[simp] theorem returned_sig (s : State) (v : List Word24) : (s.returned v).sig = s.sig := rfl
@[simp] theorem returned_wire (s : State) (v : List Word24) : (s.returned v).wire = s.wire := rfl
@[simp] theorem returned_drv (s : State) (v : List Word24) : (s.returned v).drv = s.drv := rfl
@[simp] theorem returned_mode (s : State) (v : List Word24) : (s.returned v).mode = s.mode := rfl
@[simp] theorem returned_run (s : State) (v : List Word24) : (s.returned v).run = s.run := rfl
@[simp] theorem returned_status (s : State) (v : List Word24) : (s.returned v).status = .ok := rfl
@[simp] theorem returned_fatal (s : State) (v : List Word24) : (s.returned v).fatal = s.fatal := rfl
@[simp] theorem returned_cmdsr (s : State) (v : List Word24) : (s.returned v).cmdsr = s.cmdsr := rfl
@[simp] theorem returned_first (s : State) (v : List Word24) : (s.returned v).first = s.first := rfl
@[simp] theorem returned_rv (s : State) (v : List Word24) : (s.returned v).rv = s.rv := rfl
@[simp] theorem returned_bitcnt (s : State) (v : List Word24) : (s.returned v).bitcnt = s.bitcnt := rfl
@[simp] theorem returned_w (s : State) (v : List Word24) : (s.returned v).w = s.w := rfl
@[simp] theorem returned_r (s : State) (v : List Word24) : (s.returned v).r = s.r := rfl
@[simp] theorem returned_grp (s : State) (v : List Word24) : (s.returned v).grp = s.grp := rfl
@[simp] theorem returned_polln (s : State) (v : List Word24) : (s.returned v).polln = s.polln := rfl
@[simp] theorem returned_cfgi (s : State) (v : List Word24) : (s.returned v).cfgi = s.cfgi := rfl
@[simp] theorem returned_item (s : State) (v : List Word24) : (s.returned v).item = s.item := rfl
@[simp] theorem returned_pending (s : State) (v : List Word24) : (s.returned v).pending = s.pending := rfl
@[simp] theorem returned_responses (s : State) (v : List Word24) : (s.returned v).responses = ⟨.ok, v, none⟩ :: s.responses := rfl
@[simp] theorem returned_trace (s : State) (v : List Word24) : (s.returned v).trace = s.trace := rfl
@[simp] theorem returned_codecOut (s : State) (v : List Word24) : (s.returned v).codecOut = s.codecOut := rfl
@[simp] theorem returned_sense (s : State) (v : List Word24) : (s.returned v).sense = s.sense := rfl
@[simp] theorem returned_draws (s : State) (v : List Word24) : (s.returned v).draws = s.draws := rfl
@[simp] theorem returned_frees (s : State) (v : List Word24) : (s.returned v).frees = s.frees := rfl

@[simp] theorem freeSeq_sig (s : State) : (s.freeSeq).sig = s.sig := rfl
@[simp] theorem freeSeq_wire (s : State) : (s.freeSeq).wire = s.wire := rfl
@[simp] theorem freeSeq_drv (s : State) : (s.freeSeq).drv = s.drv := rfl
@[simp] theorem freeSeq_mode (s : State) : (s.freeSeq).mode = s.mode := rfl
@[simp] theorem freeSeq_run (s : State) : (s.freeSeq).run = s.run := rfl
@[simp] theorem freeSeq_status (s : State) : (s.freeSeq).status = s.status := rfl
@[simp] theorem freeSeq_fatal (s : State) : (s.freeSeq).fatal = s.fatal := rfl
@[simp] theorem freeSeq_cmdsr (s : State) : (s.freeSeq).cmdsr = Config.freeCmdsr s.frees := rfl
@[simp] theorem freeSeq_first (s : State) : (s.freeSeq).first = Config.freeFirst s.frees := rfl
@[simp] theorem freeSeq_rv (s : State) : (s.freeSeq).rv = Config.freeRv s.frees := rfl
@[simp] theorem freeSeq_bitcnt (s : State) : (s.freeSeq).bitcnt = Config.freeBitcnt s.frees := rfl
@[simp] theorem freeSeq_w (s : State) : (s.freeSeq).w = s.w := rfl
@[simp] theorem freeSeq_r (s : State) : (s.freeSeq).r = s.r := rfl
@[simp] theorem freeSeq_grp (s : State) : (s.freeSeq).grp = s.grp := rfl
@[simp] theorem freeSeq_polln (s : State) : (s.freeSeq).polln = s.polln := rfl
@[simp] theorem freeSeq_cfgi (s : State) : (s.freeSeq).cfgi = s.cfgi := rfl
@[simp] theorem freeSeq_item (s : State) : (s.freeSeq).item = none := rfl
@[simp] theorem freeSeq_pending (s : State) : (s.freeSeq).pending = s.pending := rfl
@[simp] theorem freeSeq_responses (s : State) : (s.freeSeq).responses = s.responses := rfl
@[simp] theorem freeSeq_trace (s : State) : (s.freeSeq).trace = s.trace := rfl
@[simp] theorem freeSeq_codecOut (s : State) : (s.freeSeq).codecOut = s.codecOut := rfl
@[simp] theorem freeSeq_sense (s : State) : (s.freeSeq).sense = s.sense := rfl
@[simp] theorem freeSeq_draws (s : State) : (s.freeSeq).draws = s.draws := rfl
@[simp] theorem freeSeq_frees (s : State) : (s.freeSeq).frees = s.frees + 1 := rfl

@[simp] theorem freeRead_sig (s : State) : (s.freeRead).sig = s.sig := rfl
@[simp] theorem freeRead_wire (s : State) : (s.freeRead).wire = s.wire := rfl
@[simp] theorem freeRead_drv (s : State) : (s.freeRead).drv = s.drv := rfl
@[simp] theorem freeRead_mode (s : State) : (s.freeRead).mode = s.mode := rfl
@[simp] theorem freeRead_run (s : State) : (s.freeRead).run = s.run := rfl
@[simp] theorem freeRead_status (s : State) : (s.freeRead).status = s.status := rfl
@[simp] theorem freeRead_fatal (s : State) : (s.freeRead).fatal = s.fatal := rfl
@[simp] theorem freeRead_cmdsr (s : State) : (s.freeRead).cmdsr = Config.freeCmdsr s.frees := rfl
@[simp] theorem freeRead_first (s : State) : (s.freeRead).first = Config.freeFirst s.frees := rfl
@[simp] theorem freeRead_rv (s : State) : (s.freeRead).rv = Config.freeRv s.frees := rfl
@[simp] theorem freeRead_bitcnt (s : State) : (s.freeRead).bitcnt = Config.freeBitcnt s.frees := rfl
@[simp] theorem freeRead_w (s : State) : (s.freeRead).w = Config.freeW s.frees := rfl
@[simp] theorem freeRead_r (s : State) : (s.freeRead).r = Config.freeR s.frees := rfl
@[simp] theorem freeRead_grp (s : State) : (s.freeRead).grp = Config.freeGrp s.frees := rfl
@[simp] theorem freeRead_polln (s : State) : (s.freeRead).polln = s.polln := rfl
@[simp] theorem freeRead_cfgi (s : State) : (s.freeRead).cfgi = s.cfgi := rfl
@[simp] theorem freeRead_item (s : State) : (s.freeRead).item = none := rfl
@[simp] theorem freeRead_pending (s : State) : (s.freeRead).pending = s.pending := rfl
@[simp] theorem freeRead_responses (s : State) : (s.freeRead).responses = s.responses := rfl
@[simp] theorem freeRead_trace (s : State) : (s.freeRead).trace = s.trace := rfl
@[simp] theorem freeRead_codecOut (s : State) : (s.freeRead).codecOut = s.codecOut := rfl
@[simp] theorem freeRead_sense (s : State) : (s.freeRead).sense = s.sense := rfl
@[simp] theorem freeRead_draws (s : State) : (s.freeRead).draws = s.draws := rfl
@[simp] theorem freeRead_frees (s : State) : (s.freeRead).frees = s.frees + 1 := rfl

@[simp] theorem freeWrite_sig (s : State) : (s.freeWrite).sig = s.sig := rfl
@[simp] theorem freeWrite_wire (s : State) : (s.freeWrite).wire = s.wire := rfl
@[simp] theorem freeWrite_drv (s : State) : (s.freeWrite).drv = s.drv := rfl
@[simp] theorem freeWrite_mode (s : State) : (s.freeWrite).mode = s.mode := rfl
@[simp] theorem freeWrite_run (s : State) : (s.freeWrite).run = s.run := rfl
@[simp] theorem freeWrite_status (s : State) : (s.freeWrite).status = s.status := rfl
@[simp] theorem freeWrite_fatal (s : State) : (s.freeWrite).fatal = s.fatal := rfl
@[simp] theorem freeWrite_cmdsr (s : State) : (s.freeWrite).cmdsr = Config.freeCmdsr s.frees := rfl
@[simp] theorem freeWrite_first (s : State) : (s.freeWrite).first = Config.freeFirst s.frees := rfl
@[simp] theorem freeWrite_rv (s : State) : (s.freeWrite).rv = Config.freeRv s.frees := rfl
@[simp] theorem freeWrite_bitcnt (s : State) : (s.freeWrite).bitcnt = Config.freeBitcnt s.frees := rfl
@[simp] theorem freeWrite_w (s : State) : (s.freeWrite).w = Config.freeW s.frees := rfl
@[simp] theorem freeWrite_r (s : State) : (s.freeWrite).r = Config.freeR s.frees := rfl
@[simp] theorem freeWrite_grp (s : State) : (s.freeWrite).grp = Config.freeGrp s.frees := rfl
@[simp] theorem freeWrite_polln (s : State) : (s.freeWrite).polln = Config.freePolln s.frees := rfl
@[simp] theorem freeWrite_cfgi (s : State) : (s.freeWrite).cfgi = Config.freeCfgi s.frees := rfl
@[simp] theorem freeWrite_item (s : State) : (s.freeWrite).item = none := rfl
@[simp] theorem freeWrite_pending (s : State) : (s.freeWrite).pending = s.pending := rfl
@[simp] theorem freeWrite_responses (s : State) : (s.freeWrite).responses = s.responses := rfl
@[simp] theorem freeWrite_trace (s : State) : (s.freeWrite).trace = s.trace := rfl
@[simp] theorem freeWrite_codecOut (s : State) : (s.freeWrite).codecOut = s.codecOut := rfl
@[simp] theorem freeWrite_sense (s : State) : (s.freeWrite).sense = s.sense := rfl
@[simp] theorem freeWrite_draws (s : State) : (s.freeWrite).draws = s.draws := rfl
@[simp] theorem freeWrite_frees (s : State) : (s.freeWrite).frees = s.frees + 1 := rfl

@[simp] theorem did_sig (s : State) (as : List Act) : (did s as).sig = actsAfter s.sig as := rfl
@[simp] theorem did_wire (s : State) (as : List Act) : (did s as).wire = wireAfter s.wire (actsEvents s.sig as) := rfl
@[simp] theorem did_drv (s : State) (as : List Act) : (did s as).drv = s.drv := rfl
@[simp] theorem did_mode (s : State) (as : List Act) : (did s as).mode = s.mode := rfl
@[simp] theorem did_run (s : State) (as : List Act) : (did s as).run = s.run := rfl
@[simp] theorem did_status (s : State) (as : List Act) : (did s as).status = s.status := rfl
@[simp] theorem did_fatal (s : State) (as : List Act) : (did s as).fatal = s.fatal := rfl
@[simp] theorem did_cmdsr (s : State) (as : List Act) : (did s as).cmdsr = s.cmdsr := rfl
@[simp] theorem did_first (s : State) (as : List Act) : (did s as).first = s.first := rfl
@[simp] theorem did_rv (s : State) (as : List Act) : (did s as).rv = s.rv := rfl
@[simp] theorem did_bitcnt (s : State) (as : List Act) : (did s as).bitcnt = s.bitcnt := rfl
@[simp] theorem did_w (s : State) (as : List Act) : (did s as).w = s.w := rfl
@[simp] theorem did_r (s : State) (as : List Act) : (did s as).r = s.r := rfl
@[simp] theorem did_grp (s : State) (as : List Act) : (did s as).grp = s.grp := rfl
@[simp] theorem did_polln (s : State) (as : List Act) : (did s as).polln = s.polln := rfl
@[simp] theorem did_cfgi (s : State) (as : List Act) : (did s as).cfgi = s.cfgi := rfl
@[simp] theorem did_item (s : State) (as : List Act) : (did s as).item = s.item := rfl
@[simp] theorem did_pending (s : State) (as : List Act) : (did s as).pending = s.pending := rfl
@[simp] theorem did_responses (s : State) (as : List Act) : (did s as).responses = s.responses := rfl
@[simp] theorem did_trace (s : State) (as : List Act) : (did s as).trace = (actsEvents s.sig as).reverse ++ s.trace := rfl
@[simp] theorem did_codecOut (s : State) (as : List Act) : (did s as).codecOut = s.codecOut := rfl
@[simp] theorem did_sense (s : State) (as : List Act) : (did s as).sense = s.sense.drop (16 * readsIn as) := rfl
@[simp] theorem did_draws (s : State) (as : List Act) : (did s as).draws = s.draws + (16 * readsIn as - s.sense.length) := rfl
@[simp] theorem did_frees (s : State) (as : List Act) : (did s as).frees = s.frees := rfl

end Sys2Proof.Laws
end

