-- ==== Sys2Proof/Laws/Ops.lean ====
section
/-! SUPPORT. What the pseudocode primitives and the frames of SEQ do, said once: each answers one state, given in full. -/

namespace Sys2Proof.Laws

open Sys2Proof.Machine Sys2Proof.Safety

/-! ### Sequencing -/

/-- An operation that answers a value hands it, and its state, to the next. -/
theorem bind_ok {α β : Type} {x : Op α} {f : α → Op β} {s t : State} {a : α} (h : x.run s = .ok a t) :
    (x >>= f).run s = (f a).run t := by
  simp only [bind, EStateM.bind, EStateM.run] at h ⊢
  rw [h]

/-- An operation that raises ends the request. -/
theorem bind_error {α β : Type} {x : Op α} {f : α → Op β} {s t : State} {e : Err} (h : x.run s = .error e t) :
    (x >>= f).run s = .error e t := by
  simp only [bind, EStateM.bind, EStateM.run] at h ⊢
  rw [h]

@[simp] theorem pure_run {α : Type} (a : α) (s : State) : (pure a : Op α).run s = .ok a s := rfl
@[simp] theorem update_run (f : State → State) (s : State) : (update f).run s = .ok () (f s) := rfl
@[simp] theorem look_run (s : State) : look.run s = .ok s s := rfl
@[simp] theorem raise_run {α : Type} (e : Err) (s : State) : (raise e : Op α).run s = .error e s := rfl

theorem violateIf_false {bad : State → Bool} {c : PvCause} {s : State} (h : bad s = false) :
    (violateIf bad c).run s = .ok () s := by
  simp [violateIf, EStateM.run, h]

theorem violateIf_true {bad : State → Bool} {c : PvCause} {s : State} (h : bad s = true) :
    (violateIf bad c).run s = .error (.violation c) s := by
  simp [violateIf, EStateM.run, h]

/-- `set` and then an operation: the pending level is written, nothing else (R12). -/
theorem setLine_bind {α : Type} (l : Line) (b : Bool) (f : Unit → Op α) (s : State) :
    (setLine l b >>= f).run s = (f ()).run { s with sig := s.sig.put l b } := rfl

/-- `commit` and then an operation (R12). -/
theorem commit_bind {α : Type} (f : Unit → Op α) (s : State) :
    (commit >>= f).run s = (f ()).run { s with wire := some s.sig, trace := .commit s.sig :: s.trace } := rfl

/-- `delay` and then an operation (R12). -/
theorem delay_bind {α : Type} (ms : Nat) (f : Unit → Op α) (s : State) :
    (delay ms >>= f).run s = (f ()).run { s with trace := .delay ms :: s.trace } := rfl

/-- `drvOpen` and then an operation (R12). -/
theorem drvOpen_bind {α : Type} (f : Unit → Op α) (s : State) :
    (drvOpen >>= f).run s =
      (f ()).run { s with drv := .opened, sig := Signals.low, trace := .driverOpen :: s.trace } := rfl

/-- `drvClose` and then an operation (R12). -/
theorem drvClose_bind {α : Type} (f : Unit → Op α) (s : State) :
    (drvClose >>= f).run s = (f ()).run { s with drv := .released, trace := .driverClose :: s.trace } := rfl

/-- A register write and then an operation. -/
theorem update_bind {α : Type} (g : State → State) (f : Unit → Op α) (s : State) :
    (update g >>= f).run s = (f ()).run (g s) := rfl

/-- A register read and then an operation. -/
theorem look_bind {α : Type} (f : State → Op α) (s : State) : (look >>= f).run s = (f s).run s := rfl

/-! ### The lines -/

/-- The state after driving the lines: new pending levels and the events emitted. -/
def drove (s : State) (g : Signals) (evs : List Event) : State :=
  { s with sig := g, wire := wireAfter s.wire evs, trace := evs.reverse ++ s.trace }

theorem wireAfter_append (w : Option Signals) (a b : List Event) :
    wireAfter w (a ++ b) = wireAfter (wireAfter w a) b := by
  induction a generalizing w with
  | nil => rfl
  | cons e a ih => cases e <;> simp [wireAfter, ih]

theorem drove_drove (s : State) (g g' : Signals) (a b : List Event) :
    drove (drove s g a) g' b = drove s g' (a ++ b) := by
  simp [drove, wireAfter_append]

theorem pulse_ok (s : State) :
    pulse.run s = .ok () (drove s { s.sig with clock := false } (pulseEvents s.sig)) := rfl

theorem pulsesEvents_succ (n : Nat) (g : Signals) : pulsesEvents (n + 1) g = pulseEvents g ++ pulsesEvents n g := by
  simp [pulsesEvents, List.replicate_succ]

/-- A pulse does not see the level the clock had. -/
theorem pulsesEvents_clock (n : Nat) (g : Signals) (b : Bool) :
    pulsesEvents n { g with clock := b } = pulsesEvents n g := rfl

theorem pulsesEvents_add (m n : Nat) (g : Signals) :
    pulsesEvents m g ++ pulsesEvents n g = pulsesEvents (m + n) g := by
  simp only [pulsesEvents, ← List.flatten_append, List.replicate_append_replicate]

/-- Pulses leave the clock low and the other lines alone. -/
theorem pulses_ok (n : Nat) (s : State) (h : s.sig.clock = false) :
    (pulses n).run s = .ok () (drove s s.sig (pulsesEvents n s.sig)) := by
  induction n generalizing s with
  | zero => rfl
  | succ n ih =>
    have hs : ({ s.sig with clock := false } : Signals) = s.sig := by rw [← h]
    rw [pulses, bind_ok (pulse_ok s), hs, ih (drove s s.sig (pulseEvents s.sig)) h, drove_drove, pulsesEvents_succ]
    rfl

/-- The first pulses of a frame, from any level of the clock. -/
theorem pulses_succ_ok (n : Nat) (s : State) :
    (pulses (n + 1)).run s = .ok () (drove s { s.sig with clock := false } (pulsesEvents (n + 1) s.sig)) := by
  rw [pulses, bind_ok (pulse_ok s), pulses_ok _ _ rfl, drove_drove, pulsesEvents_succ]
  rfl

theorem bitout_ok (b : Bool) (s : State) :
    (bitout b).run s = .ok () (drove s { s.sig with data := b, clock := false }
      (.commit { s.sig with data := b } :: pulseEvents { s.sig with data := b })) := rfl

theorem afterBits_cons (g : Signals) (b : Bool) (bs : List Bool) :
    afterBits g (b :: bs) = afterBits { g with data := b, clock := false } bs := by
  cases bs with
  | nil => rfl
  | cons b' bs =>
    have : (b :: b' :: bs).getLast? = (b' :: bs).getLast? := by simp [List.getLast?_cons]
    simp only [afterBits, this]
    cases h : (b' :: bs).getLast? with
    | none => simp at h
    | some x => rfl

theorem bitsEvents_data (g : Signals) (b : Bool) (bs : List Bool) :
    bitsEvents { g with data := b } bs = bitsEvents g bs := by
  induction bs generalizing g with
  | nil => rfl
  | cons b' bs ih =>
    simp only [bitsEvents]
    rw [show (⟨g.reset, g.power, b, false⟩ : Signals) = { ({ g with clock := false } : Signals) with data := b } from rfl, ih]

/-- The bits of a frame: `BITCNT` counts them, data holds the last, the clock is low (R29, R82). -/
theorem sendBits_ok (bs : List Bool) (s : State) :
    (sendBits bs).run s = .ok () { drove s (afterBits s.sig bs) (bitsEvents s.sig bs) with
      bitcnt := s.bitcnt + BitVec.ofNat 6 bs.length } := by
  induction bs generalizing s with
  | nil => simp [sendBits, drove, bitsEvents, wireAfter, afterBits]
  | cons b bs ih =>
    have hd : bitsEvents ({ s.sig with data := b, clock := false }) bs = bitsEvents { s.sig with clock := false } bs :=
      bitsEvents_data { s.sig with clock := false } b bs
    have hc : s.bitcnt + BitVec.ofNat 6 (bs.length + 1) = s.bitcnt + 1 + BitVec.ofNat 6 bs.length := by
      rw [BitVec.ofNat_add, BitVec.add_assoc, BitVec.add_comm (BitVec.ofNat 6 bs.length)]
      rfl
    rw [sendBits, bind_ok (bitout_ok b s), countBit, update_bind, ih, afterBits_cons, bitsEvents, List.length_cons, hc,
      ← hd, ← drove_drove s { s.sig with data := b, clock := false }]
    rfl

/-- The KEY frame (R65). -/
theorem sendKey_ok (s : State) :
    sendKey.run s = .ok () { drove s (afterBits s.sig (msbFirst Config.key)) (bitsEvents s.sig (msbFirst Config.key)) with
      bitcnt := 32 } := by
  rw [sendKey, clearCount, update_bind, sendBits_ok]
  simp [drove]

/-- ENTER, on a driver the block does not own (R83). -/
theorem seqEnter_ok (s : State) (h : s.drv = .released) :
    seqEnter.run s = .ok () { drove s running enterEvents with drv := .opened, bitcnt := 32 } := by
  rw [seqEnter, bind_ok (violateIf_false (by simp [h]))]
  rw [drvOpen_bind, setLine_bind, setLine_bind, setLine_bind, commit_bind, setLine_bind, commit_bind, setLine_bind,
    commit_bind, setLine_bind, commit_bind, bind_ok (sendKey_ok _), setLine_bind, commit_bind, delay_bind, setLine_bind,
    commit_bind]
  simp only [drove, Signals.put, Signals.low, enterEvents, wireAfter_append, List.reverse_append]
  rfl

/-- ENTER on an open driver (R83, R162). -/
theorem seqEnter_error (s : State) (h : s.drv = .opened) : seqEnter.run s = .error (.violation .driverOpen) s := by
  rw [seqEnter, bind_error (violateIf_true (by simp [h]))]

theorem requireOpen_ok (s : State) (h : s.drv = .opened) : requireOpen.run s = .ok () s :=
  violateIf_false (by simp [h])

theorem requireOpen_error (s : State) (h : s.drv = .released) :
    requireOpen.run s = .error (.violation .driverClosed) s := violateIf_true (by simp [h])

/-- LEAVE (R84). -/
theorem seqLeave_ok (s : State) (h : s.drv = .opened) :
    seqLeave.run s = .ok () { drove s { s.sig with reset := false, power := false } (leaveEvents s.sig) with
      drv := .released } := by
  rw [seqLeave, bind_ok (requireOpen_ok s h)]
  rfl

theorem seqLeave_error (s : State) (h : s.drv = .released) :
    seqLeave.run s = .error (.violation .driverClosed) s := by
  rw [seqLeave, bind_error (requireOpen_error s h)]

theorem afterBits_lsbFirst (g : Signals) (c : Cmd) :
    afterBits { g with data := false, clock := false } (lsbFirst c) = afterSix g c := rfl

/-- EXEC (R85): `CMDSR`, `FIRST`, the SIX frame, data left at the command's bit 23. -/
theorem seqExec_ok (c : Cmd) (first : Bool) (s : State) (h : s.drv = .opened) :
    (seqExec c first).run s = .ok () { drove s (afterSix s.sig c) (sixEvents s.sig first c) with
      cmdsr := c, first := first, bitcnt := 24 } := by
  rw [seqExec, bind_ok (requireOpen_ok s h), update_bind, sendSix, setLine_bind, commit_bind,
    bind_ok (pulses_succ_ok 3 _), look_bind, bind_ok (pulses_ok _ _ rfl), clearCount, update_bind, sendBits_ok]
  have hp (g : Signals) : pulsesEvents 9 g = pulsesEvents 4 g ++ pulsesEvents 5 g := (pulsesEvents_add 4 5 g).symm
  cases first <;>
    simp only [drove, Signals.put, sixEvents, hp, wireAfter_append, List.reverse_append, wireAfter, if_true,
      if_false, Bool.false_eq_true, List.reverse_cons, List.append_assoc] <;>
    rfl

theorem seqExec_error (c : Cmd) (first : Bool) (s : State) (h : s.drv = .released) :
    (seqExec c first).run s = .error (.violation .driverClosed) s := by
  rw [seqExec, bind_error (requireOpen_error s h)]

end Sys2Proof.Laws
end

