-- ==== Sys2Proof/Laws/Keeps.lean ====
section
/-! SUPPORT. What every operation of the block does in ANY state, raising or not: it emits events, puts on `WIRE` what they
commit (R22), delays by the five values only (R171), and leaves the host's view alone (R161 writes it at the end). -/

namespace Sys2Proof.Laws

open Sys2Proof.Machine Sys2Proof.Safety

/-- From `s` to `t` some events are emitted; the request queue and what the host sees are as before. -/
def Emits (s t : State) : Prop :=
  (∃ evs : List Event, t.trace = evs.reverse ++ s.trace ∧ t.wire = wireAfter s.wire evs ∧ evs.all delayOk = true) ∧
    t.pending = s.pending ∧ t.responses = s.responses ∧ t.status = s.status ∧ t.fatal = s.fatal ∧
    t.codecOut = s.codecOut ∧ t.frees = s.frees

theorem Emits.refl (s : State) : Emits s s := ⟨⟨[], rfl, rfl, rfl⟩, rfl, rfl, rfl, rfl, rfl, rfl⟩

theorem Emits.trans {s t u : State} (h1 : Emits s t) (h2 : Emits t u) : Emits s u := by
  obtain ⟨⟨e1, a1, b1, c1⟩, p1, q1, r1, u1, v1, w1⟩ := h1
  obtain ⟨⟨e2, a2, b2, c2⟩, p2, q2, r2, u2, v2, w2⟩ := h2
  refine ⟨⟨e1 ++ e2, ?_, ?_, ?_⟩, p2.trans p1, q2.trans q1, r2.trans r1, u2.trans u1, v2.trans v1, w2.trans w1⟩
  · rw [a2, a1, List.reverse_append, List.append_assoc]
  · rw [b2, b1, wireAfter_append]
  · rw [List.all_append, c1, c2]
    rfl

/-- The state an operation ends in, whether it yields or raises. -/
def endState {α : Type} : EStateM.Result Err State α → State
  | .ok _ t => t
  | .error _ t => t

/-- An operation emits from every state. -/
def Keeps {α : Type} (x : Op α) : Prop := ∀ s, Emits s (endState (x.run s))

theorem keeps_bind {α β : Type} {x : Op α} {f : α → Op β} (hx : Keeps x) (hf : ∀ a, Keeps (f a)) : Keeps (x >>= f) := by
  intro s
  have h := hx s
  cases hr : x.run s with
  | ok a t =>
    rw [hr] at h
    rw [bind_ok hr]
    exact h.trans (hf a t)
  | error e t =>
    rw [hr] at h
    rw [bind_error hr]
    exact h

theorem keeps_pure {α : Type} (a : α) : Keeps (pure a : Op α) := fun s => Emits.refl s
theorem keeps_look : Keeps look := fun s => Emits.refl s
theorem keeps_raise {α : Type} (e : Err) : Keeps (raise e : Op α) := fun s => Emits.refl s

theorem keeps_violateIf (bad : State → Bool) (c : PvCause) : Keeps (violateIf bad c) := by
  intro s
  cases h : bad s with
  | true => rw [violateIf_true h]; exact Emits.refl s
  | false => rw [violateIf_false h]; exact Emits.refl s

/-- A write of registers other than the ones `Emits` speaks of. -/
theorem keeps_update {f : State → State}
    (h : ∀ s, (f s).trace = s.trace ∧ (f s).wire = s.wire ∧ (f s).pending = s.pending ∧ (f s).responses = s.responses ∧
      (f s).status = s.status ∧ (f s).fatal = s.fatal ∧ (f s).codecOut = s.codecOut ∧ (f s).frees = s.frees) :
    Keeps (update f) := by
  intro s
  obtain ⟨a, b, p, q, r, u, v, w⟩ := h s
  exact ⟨⟨[], a, b, rfl⟩, p, q, r, u, v, w⟩

theorem keeps_setLine (l : Line) (b : Bool) : Keeps (setLine l b) :=
  keeps_update fun _ => ⟨rfl, rfl, rfl, rfl, rfl, rfl, rfl, rfl⟩

theorem keeps_commit : Keeps commit := fun s => ⟨⟨[.commit s.sig], rfl, rfl, rfl⟩, rfl, rfl, rfl, rfl, rfl, rfl⟩
theorem keeps_drvOpen : Keeps drvOpen := fun _ => ⟨⟨[.driverOpen], rfl, rfl, rfl⟩, rfl, rfl, rfl, rfl, rfl, rfl⟩
theorem keeps_drvClose : Keeps drvClose := fun _ => ⟨⟨[.driverClose], rfl, rfl, rfl⟩, rfl, rfl, rfl, rfl, rfl, rfl⟩

theorem keeps_delay {ms : Nat} (h : delayOk (.delay ms) = true) : Keeps (delay ms) :=
  fun _ => ⟨⟨[.delay ms], rfl, rfl, by simp [h]⟩, rfl, rfl, rfl, rfl, rfl, rfl⟩

theorem keeps_sample : Keeps sample := by
  intro s
  cases h : s.sense with
  | nil =>
    simp only [sample, EStateM.run, h, endState]
    exact ⟨⟨[.sample _], rfl, rfl, rfl⟩, rfl, rfl, rfl, rfl, rfl, rfl⟩
  | cons b rest =>
    simp only [sample, EStateM.run, h, endState]
    exact ⟨⟨[.sample b], rfl, rfl, rfl⟩, rfl, rfl, rfl, rfl, rfl, rfl⟩

theorem keeps_pulse : Keeps pulse :=
  keeps_bind (keeps_setLine _ _) fun _ => keeps_bind keeps_commit fun _ =>
    keeps_bind (keeps_setLine _ _) fun _ => keeps_commit

theorem keeps_pulses (n : Nat) : Keeps (pulses n) := by
  induction n with
  | zero => exact keeps_pure ()
  | succ n ih => exact keeps_bind keeps_pulse fun _ => ih

theorem keeps_clearCount : Keeps clearCount := keeps_update fun _ => ⟨rfl, rfl, rfl, rfl, rfl, rfl, rfl, rfl⟩
theorem keeps_countBit : Keeps countBit := keeps_update fun _ => ⟨rfl, rfl, rfl, rfl, rfl, rfl, rfl, rfl⟩

theorem keeps_bitout (b : Bool) : Keeps (bitout b) :=
  keeps_bind (keeps_setLine _ _) fun _ => keeps_bind keeps_commit fun _ => keeps_pulse

theorem keeps_sendBits (bs : List Bool) : Keeps (sendBits bs) := by
  induction bs with
  | nil => exact keeps_pure ()
  | cons b bs ih => exact keeps_bind (keeps_bitout b) fun _ => keeps_bind keeps_countBit fun _ => ih

theorem keeps_sendKey : Keeps sendKey := keeps_bind keeps_clearCount fun _ => keeps_sendBits _
theorem keeps_requireOpen : Keeps requireOpen := keeps_violateIf _ _

theorem keeps_seqEnter : Keeps seqEnter :=
  keeps_bind (keeps_violateIf _ _) fun _ => keeps_bind keeps_drvOpen fun _ =>
    keeps_bind (keeps_setLine _ _) fun _ => keeps_bind (keeps_setLine _ _) fun _ =>
    keeps_bind (keeps_setLine _ _) fun _ => keeps_bind keeps_commit fun _ =>
    keeps_bind (keeps_setLine _ _) fun _ => keeps_bind keeps_commit fun _ =>
    keeps_bind (keeps_setLine _ _) fun _ => keeps_bind keeps_commit fun _ =>
    keeps_bind (keeps_setLine _ _) fun _ => keeps_bind keeps_commit fun _ =>
    keeps_bind keeps_sendKey fun _ => keeps_bind (keeps_setLine _ _) fun _ => keeps_bind keeps_commit fun _ =>
    keeps_bind (keeps_delay rfl) fun _ => keeps_bind (keeps_setLine _ _) fun _ => keeps_bind keeps_commit fun _ =>
    keeps_delay rfl

theorem keeps_seqLeave : Keeps seqLeave :=
  keeps_bind keeps_requireOpen fun _ => keeps_bind (keeps_setLine _ _) fun _ => keeps_bind keeps_commit fun _ =>
    keeps_bind (keeps_setLine _ _) fun _ => keeps_bind keeps_commit fun _ => keeps_drvClose

theorem keeps_seqExec (c : Cmd) (first : Bool) : Keeps (seqExec c first) :=
  keeps_bind keeps_requireOpen fun _ =>
    keeps_bind (keeps_update fun _ => ⟨rfl, rfl, rfl, rfl, rfl, rfl, rfl, rfl⟩) fun _ =>
    keeps_bind (keeps_setLine _ _) fun _ => keeps_bind keeps_commit fun _ =>
    keeps_bind (keeps_pulses _) fun _ => keeps_bind keeps_look fun _ => keeps_bind (keeps_pulses _) fun _ =>
    keeps_bind keeps_clearCount fun _ => keeps_sendBits _

theorem keeps_sampleBit (i : Nat) : Keeps (sampleBit i) :=
  keeps_bind (keeps_setLine _ _) fun _ => keeps_bind keeps_commit fun _ => keeps_bind keeps_sample fun _ =>
    keeps_bind (keeps_update fun _ => ⟨rfl, rfl, rfl, rfl, rfl, rfl, rfl, rfl⟩) fun _ =>
    keeps_bind keeps_countBit fun _ => keeps_bind (keeps_setLine _ _) fun _ => keeps_commit

theorem keeps_sampleBits (n : Nat) : Keeps (sampleBits n) := by
  induction n with
  | zero => exact keeps_pure ()
  | succ n ih => exact keeps_bind ih fun _ => keeps_sampleBit n

theorem keeps_selectOutput : Keeps selectOutput :=
  keeps_bind (keeps_setLine _ _) fun _ => keeps_bind keeps_commit fun _ => keeps_bind keeps_pulse fun _ =>
    keeps_bind (keeps_setLine _ _) fun _ => keeps_bind keeps_commit fun _ => keeps_pulses _

theorem keeps_seqRegout : Keeps seqRegout :=
  keeps_bind keeps_requireOpen fun _ => keeps_bind keeps_selectOutput fun _ =>
    keeps_bind (keeps_update fun _ => ⟨rfl, rfl, rfl, rfl, rfl, rfl, rfl, rfl⟩) fun _ =>
    keeps_bind keeps_clearCount fun _ => keeps_bind (keeps_sampleBits _) fun _ => keeps_bind keeps_look fun _ =>
    keeps_pure _

theorem keeps_runExec (c : Cmd) : Keeps (runExec c) :=
  keeps_bind (keeps_update fun _ => ⟨rfl, rfl, rfl, rfl, rfl, rfl, rfl, rfl⟩) fun _ => keeps_seqExec c false

theorem keeps_runRegout : Keeps runRegout :=
  keeps_bind (keeps_update fun _ => ⟨rfl, rfl, rfl, rfl, rfl, rfl, rfl, rfl⟩) fun _ => keeps_seqRegout

theorem keeps_runCmds (cs : List Cmd) : Keeps (runCmds cs) := by
  induction cs with
  | nil => exact keeps_pure ()
  | cons c cs ih => exact keeps_bind (keeps_runExec c) fun _ => ih

theorem keeps_readItems (is : List Item) (j : Nat) : Keeps (readItems is j) := by
  induction is generalizing j with
  | nil => exact keeps_pure ()
  | cons i is ih =>
    cases i with
    | exec c => exact keeps_bind (keeps_runExec c) fun _ => ih j
    | regOut =>
      exact keeps_bind keeps_runRegout fun _ =>
        keeps_bind (keeps_update fun _ => ⟨rfl, rfl, rfl, rfl, rfl, rfl, rfl, rfl⟩) fun _ => ih (j + 1)

theorem keeps_readGroup (sc : Scripts) : Keeps (readGroup sc) :=
  keeps_bind (keeps_readItems _ _) fun _ => keeps_update fun _ => ⟨rfl, rfl, rfl, rfl, rfl, rfl, rfl, rfl⟩

theorem keeps_readGroups (sc : Scripts) (k g : Nat) : Keeps (readGroups sc k g) := by
  induction k generalizing g with
  | zero => exact keeps_pure _
  | succ k ih =>
    exact keeps_bind (keeps_update fun _ => ⟨rfl, rfl, rfl, rfl, rfl, rfl, rfl, rfl⟩) fun _ =>
      keeps_bind (keeps_readGroup sc) fun _ => keeps_bind keeps_look fun _ => keeps_bind (ih (g + 1)) fun _ => keeps_pure _

theorem keeps_readBlock (sc : Scripts) (a : Addr24) (k : Nat) : Keeps (readBlock sc a k) :=
  keeps_bind (keeps_runCmds _) fun _ => keeps_readGroups _ _ _

theorem keeps_pollLoop (sc : Scripts) (n : Nat) : Keeps (pollLoop sc n) := by
  induction n with
  | zero => exact keeps_pure _
  | succ n ih =>
    refine keeps_bind (keeps_update fun _ => ⟨rfl, rfl, rfl, rfl, rfl, rfl, rfl, rfl⟩) fun _ =>
      keeps_bind (keeps_bind (keeps_runCmds _) fun _ => keeps_bind keeps_runRegout fun _ => keeps_pure _) fun done => ?_
    cases done with
    | true => exact keeps_pure _
    | false => exact ih

theorem keeps_pollOrRaise (sc : Scripts) (e : Err) : Keeps (pollOrRaise sc e) := by
  refine keeps_bind (keeps_pollLoop _ _) fun done => ?_
  cases done with
  | true => exact keeps_pure _
  | false => exact keeps_raise _

theorem keeps_writeGroups (sc : Scripts) (d : List Word24) (k g : Nat) : Keeps (writeGroups sc d k g) := by
  induction k generalizing g with
  | zero => exact keeps_pure _
  | succ k ih =>
    exact keeps_bind (keeps_update fun _ => ⟨rfl, rfl, rfl, rfl, rfl, rfl, rfl, rfl⟩) fun _ =>
      keeps_bind (keeps_bind (keeps_update fun _ => ⟨rfl, rfl, rfl, rfl, rfl, rfl, rfl, rfl⟩) fun _ =>
        keeps_bind (keeps_update fun _ => ⟨rfl, rfl, rfl, rfl, rfl, rfl, rfl, rfl⟩) fun _ =>
        keeps_bind keeps_look fun _ => keeps_bind (keeps_runCmds _) fun _ => keeps_runCmds _) fun _ => ih (g + 1)

theorem keeps_writeCfgWords (sc : Scripts) (vs : List Word24) (i : Nat) : Keeps (writeCfgWords sc vs i) := by
  induction vs generalizing i with
  | nil => exact keeps_pure _
  | cons v vs ih =>
    exact keeps_bind (keeps_update fun _ => ⟨rfl, rfl, rfl, rfl, rfl, rfl, rfl, rfl⟩) fun _ =>
      keeps_bind (keeps_runCmds _) fun _ => keeps_bind (keeps_runCmds _) fun _ => keeps_bind (keeps_delay rfl) fun _ =>
      keeps_bind (keeps_pollOrRaise _ _) fun _ => ih (i + 1)

theorem keeps_engBegin (sc : Scripts) : Keeps (engBegin sc) :=
  keeps_bind (keeps_violateIf _ _) fun _ => keeps_bind (keeps_violateIf _ _) fun _ => keeps_bind keeps_seqEnter fun _ =>
    keeps_bind (keeps_seqExec _ _) fun _ =>
    keeps_bind (keeps_update fun _ => ⟨rfl, rfl, rfl, rfl, rfl, rfl, rfl, rfl⟩) fun _ => keeps_pure _

theorem keeps_engEnd : Keeps engEnd :=
  keeps_bind (keeps_violateIf _ _) fun _ => keeps_bind keeps_seqLeave fun _ =>
    keeps_bind (keeps_update fun _ => ⟨rfl, rfl, rfl, rfl, rfl, rfl, rfl, rfl⟩) fun _ => keeps_pure _

theorem keeps_engStartDev : Keeps engStartDev :=
  keeps_bind (keeps_violateIf _ _) fun _ => keeps_bind (keeps_violateIf _ _) fun _ => keeps_bind keeps_drvOpen fun _ =>
    keeps_bind (keeps_setLine _ _) fun _ => keeps_bind (keeps_setLine _ _) fun _ => keeps_bind keeps_commit fun _ =>
    keeps_bind (keeps_update fun _ => ⟨rfl, rfl, rfl, rfl, rfl, rfl, rfl, rfl⟩) fun _ => keeps_pure _

theorem keeps_engStopDev : Keeps engStopDev :=
  keeps_bind (keeps_violateIf _ _) fun _ => keeps_bind (keeps_setLine _ _) fun _ => keeps_bind (keeps_setLine _ _) fun _ =>
    keeps_bind keeps_commit fun _ => keeps_bind keeps_drvClose fun _ =>
    keeps_bind (keeps_update fun _ => ⟨rfl, rfl, rfl, rfl, rfl, rfl, rfl, rfl⟩) fun _ => keeps_pure _

theorem keeps_engReadDevid (sc : Scripts) : Keeps (engReadDevid sc) :=
  keeps_bind (keeps_violateIf _ _) fun _ => keeps_bind (keeps_runCmds _) fun _ => keeps_bind (keeps_runCmds _) fun _ =>
    keeps_bind (keeps_readGroup _) fun _ => keeps_bind keeps_look fun _ => keeps_pure _

theorem keeps_engReadMem (sc : Scripts) (a : Addr24) (n : Nat) : Keeps (engReadMem sc a n) :=
  keeps_bind (keeps_violateIf _ _) fun _ => keeps_bind (keeps_violateIf _ _) fun _ => keeps_readBlock _ _ _

theorem keeps_engReadCfg (sc : Scripts) : Keeps (engReadCfg sc) :=
  keeps_bind (keeps_violateIf _ _) fun _ => keeps_readBlock _ _ _

theorem keeps_engWriteMem (sc : Scripts) (a : Addr24) (d : List Word24) : Keeps (engWriteMem sc a d) :=
  keeps_bind (keeps_violateIf _ _) fun _ => keeps_bind (keeps_violateIf _ _) fun _ => keeps_bind (keeps_runCmds _) fun _ =>
    keeps_bind (keeps_writeGroups _ _ _ _) fun _ => keeps_bind (keeps_runCmds _) fun _ => keeps_bind (keeps_delay rfl) fun _ =>
    keeps_bind (keeps_pollOrRaise _ _) fun _ => keeps_pure _

theorem keeps_engWriteCfg (sc : Scripts) (d : List Word24) : Keeps (engWriteCfg sc d) :=
  keeps_bind (keeps_violateIf _ _) fun _ => keeps_bind (keeps_violateIf _ _) fun _ => keeps_bind (keeps_runCmds _) fun _ =>
    keeps_bind (keeps_writeCfgWords _ _ _) fun _ => keeps_pure _

theorem keeps_engErase (sc : Scripts) : Keeps (engErase sc) :=
  keeps_bind (keeps_violateIf _ _) fun _ => keeps_bind (keeps_runCmds _) fun _ => keeps_bind (keeps_runCmds _) fun _ =>
    keeps_bind (keeps_delay rfl) fun _ => keeps_pure _

/-- A request always ends in a next state. -/
theorem serve_next (free : State → State) (x : Op (List Word24)) (s : State) : ∃ t, serve free x s = .next t := by
  rw [serve]
  split <;> exact ⟨_, rfl⟩

/-- So does a primitive run alone. -/
theorem serveAlone_next (x : Op Unit) (s : State) : ∃ t, serveAlone x s = .next t := by
  rw [serveAlone]
  split <;> exact ⟨_, rfl⟩

/-- A primitive or frame run alone: events, and a response only when it raises. -/
theorem keeps_keyFrame : Keeps (do requireOpen; sendKey) := keeps_bind keeps_requireOpen fun _ => keeps_sendKey

theorem keeps_regoutFrame (r : Reg16) :
    Keeps (do requireOpen
              update fun s => { s with sense := lsbFirst r ++ s.sense }
              let _ ← seqRegout) :=
  keeps_bind keeps_requireOpen fun _ =>
    keeps_bind (keeps_update fun _ => ⟨rfl, rfl, rfl, rfl, rfl, rfl, rfl, rfl⟩) fun _ =>
    keeps_bind keeps_seqRegout fun _ => keeps_pure _

end Sys2Proof.Laws
end

