-- ==== Sys2Proof/Laws/Regout.lean ====
section
/-! SUPPORT. Sampling and REGOUT (R86): every value read is the one the target device drives, answered or free (R5). -/

namespace Sys2Proof.Laws

open Sys2Proof.Machine Sys2Proof.Safety

/-- The state after `n` samples, as far as the device's answers go. -/
def listened (s : State) (n : Nat) : State :=
  { s with sense := s.sense.drop n, draws := s.draws + (n - s.sense.length) }

/-- Listening on goes on with the device's next bits. -/
theorem bitHeard_listened (s : State) (n k : Nat) : bitHeard (listened s n) k = bitHeard s (n + k) := by
  simp only [bitHeard, listened, List.getElem?_drop, List.length_drop]
  by_cases h : n + k < s.sense.length
  · simp [List.getElem?_eq_getElem h]
  · rw [List.getElem?_eq_none (by omega)]
    simp only [Option.getD_none]
    congr 1
    omega

theorem listened_listened (s : State) (m n : Nat) : listened (listened s m) n = listened s (m + n) := by
  simp only [listened, List.drop_drop, List.length_drop, State.mk.injEq, true_and, and_true]
  omega

/-- Only the answers decide what is heard. -/
theorem bitHeard_congr {s t : State} (h1 : t.sense = s.sense) (h2 : t.draws = s.draws) (k : Nat) :
    bitHeard t k = bitHeard s k := by
  simp only [bitHeard, h1, h2]

theorem heard_congr {s t : State} (h1 : t.sense = s.sense) (h2 : t.draws = s.draws) : heard t = heard s := by
  funext i
  simp only [heard, bitHeard_congr h1 h2]

theorem heard_listened (s : State) (n i : Nat) : heard (listened s (16 * n)) i = heard s (n + i) := by
  simp only [heard, bitHeard_listened]
  congr 1
  apply List.map_congr_left
  intro k _
  congr 1
  omega

/-- Bit `j` of a value read is the `j`-th bit heard of its sixteen (R86). -/
theorem heard_bit (s : State) (i j : Nat) (hj : j < 16) : (heard s i).getLsbD j = bitHeard s (16 * i + j) := by
  rw [heard, getLsbD_ofLsbFirst]
  simp [hj]

/-- One sample (R12, R23). -/
theorem sample_run (s : State) :
    sample.run s = .ok (bitHeard s 0)
      { listened s 1 with trace := .sample (bitHeard s 0) :: s.trace } := by
  cases h : s.sense with
  | nil => simp [sample, EStateM.run, bitHeard, listened, h]
  | cons b rest => simp [sample, EStateM.run, bitHeard, listened, h]

/-- A sample and then an operation, in a state with the answers of `s` before it. -/
theorem sample_bind {α : Type} (f : Bool → Op α) (s t : State) (h1 : t.sense = s.sense) (h2 : t.draws = s.draws) :
    (sample >>= f).run t = (f (bitHeard s 0)).run { listened t 1 with trace := .sample (bitHeard s 0) :: t.trace } := by
  rw [bind_ok (sample_run t), bitHeard_congr h1 h2]

/-- `RV` after `n` samples into it. -/
def rvAfter (h : Nat → Bool) (v : Reg16) : Nat → Reg16
  | 0 => v
  | n + 1 => writeBit (rvAfter h v n) n (h n)

theorem rvAfter_bit (h : Nat → Bool) (v : Reg16) (n j : Nat) (hj : j < 16) :
    (rvAfter h v n).getLsbD j = if j < n then h j else v.getLsbD j := by
  induction n with
  | zero => simp [rvAfter]
  | succ n ih =>
    rw [rvAfter, getLsbD_writeBit _ _ _ _ hj, ih]
    by_cases h1 : j = n
    · subst h1; simp
    · by_cases h2 : j < n
      · rw [if_neg h1, if_pos h2, if_pos (by omega)]
      · rw [if_neg h1, if_neg h2, if_neg (by omega)]

/-- After sixteen samples `RV` is the value the device drove, the first bit least significant (R86). -/
theorem rvAfter_heard (s : State) (v : Reg16) : rvAfter (bitHeard s) v 16 = heard s 0 := by
  apply BitVec.eq_of_getLsbD_eq
  intro j hj
  rw [rvAfter_bit _ _ _ _ hj, if_pos hj, heard, getLsbD_ofLsbFirst]
  simp [hj]

theorem lsbFirst_heard (s : State) : lsbFirst (heard s 0) = (List.range 16).map (bitHeard s) := by
  rw [heard, lsbFirst_ofLsbFirst _ (by simp)]
  simp

/-- The events of `n` sampled bits. -/
def samplesEvents (g : Signals) (h : Nat → Bool) (n : Nat) : List Event :=
  ((List.range n).map h).flatMap (sampleEvents g)

theorem samplesEvents_succ (g : Signals) (h : Nat → Bool) (n : Nat) :
    samplesEvents g h (n + 1) = samplesEvents g h n ++ sampleEvents g (h n) := by
  simp [samplesEvents, List.range_succ]

/-- The state after `n` sampled bits: the lines driven, the answers used, `RV` and `BITCNT`. -/
def sampled (s : State) (g : Signals) (evs : List Event) (n : Nat) (v : Reg16) (k : BitVec 6) : State :=
  { s with
    sig := g, wire := wireAfter s.wire evs, trace := evs.reverse ++ s.trace, sense := s.sense.drop n
    draws := s.draws + (n - s.sense.length), rv := v, bitcnt := k }

theorem sampled_sampled (s : State) (g g' : Signals) (a b : List Event) (m n : Nat) (v v' : Reg16) (k k' : BitVec 6) :
    sampled (sampled s g a m v k) g' b n v' k' = sampled s g' (a ++ b) (m + n) v' k' := by
  simp only [sampled, wireAfter_append, List.drop_drop, List.length_drop, List.reverse_append, List.append_assoc,
    State.mk.injEq, true_and, and_true]
  omega

theorem bitHeard_sampled (s : State) (g : Signals) (evs : List Event) (n : Nat) (v : Reg16) (k : BitVec 6) (i : Nat) :
    bitHeard (sampled s g evs n v k) i = bitHeard s (n + i) := bitHeard_listened s n i

/-- One sampled bit of a REGOUT (R86). -/
theorem sampleBit_ok (i : Nat) (s : State) :
    (sampleBit i).run s = .ok () (sampled s { s.sig with clock := false } (sampleEvents s.sig (bitHeard s 0)) 1
      (writeBit s.rv i (bitHeard s 0)) (s.bitcnt + 1)) := by
  simp only [sampleBit, setLine_bind, commit_bind]
  rw [sample_bind (s := s)]
  · simp only [countBit, update_bind, setLine_bind, commit, update_run, sampled, listened, sampleEvents, wireAfter,
      Signals.put, List.reverse_cons, List.reverse_nil, List.nil_append, List.cons_append]
  · rfl
  · rfl

/-- The sampled bits of a REGOUT (R86). -/
theorem sampleBits_ok (n : Nat) (s : State) (hc : s.sig.clock = false) :
    (sampleBits n).run s = .ok () (sampled s s.sig (samplesEvents s.sig (bitHeard s) n) n
      (rvAfter (bitHeard s) s.rv n) (s.bitcnt + BitVec.ofNat 6 n)) := by
  have hs : ({ s.sig with clock := false } : Signals) = s.sig := by rw [← hc]
  induction n with
  | zero => simp [sampleBits, sampled, samplesEvents, wireAfter, rvAfter]
  | succ n ih =>
    have hn : s.bitcnt + BitVec.ofNat 6 n + 1 = s.bitcnt + BitVec.ofNat 6 (n + 1) := by
      rw [BitVec.ofNat_add, BitVec.add_assoc]
      rfl
    rw [sampleBits, bind_ok ih, sampleBit_ok, sampled_sampled, bitHeard_sampled, samplesEvents_succ, rvAfter, ← hn]
    simp only [sampled, hs, Nat.add_zero]

/-- The head of a REGOUT frame (R68). -/
theorem selectOutput_ok (s : State) :
    selectOutput.run s = .ok () (drove s (afterRegout s.sig)
      (.commit { s.sig with data := true } :: pulseEvents { s.sig with data := true } ++
        .commit { s.sig with data := false, clock := false } :: pulsesEvents 11 { s.sig with data := false })) := by
  rw [selectOutput, setLine_bind, commit_bind, bind_ok (pulse_ok _), setLine_bind, commit_bind, pulses_ok _ _ rfl]
  rfl

/-- REGOUT (R86): it yields the value the target device drives next. -/
theorem seqRegout_ok (s : State) (h : s.drv = .opened) :
    seqRegout.run s = .ok (heard s 0)
      (sampled s (afterRegout s.sig) (regoutEvents s.sig (heard s 0)) 16 (heard s 0) 16) := by
  generalize hx : drove s (afterRegout s.sig)
      (.commit { s.sig with data := true } :: pulseEvents { s.sig with data := true } ++
        .commit { s.sig with data := false, clock := false } :: pulsesEvents 11 { s.sig with data := false }) = x
  have h1 : bitHeard ({ x with rv := 0, bitcnt := 0 } : State) = bitHeard s :=
    funext fun k => bitHeard_congr (by rw [← hx]; rfl) (by rw [← hx]; rfl) k
  have h2 : x.sig = afterRegout s.sig := by rw [← hx]; rfl
  rw [seqRegout, bind_ok (requireOpen_ok s h), bind_ok (selectOutput_ok s), update_bind, clearCount, update_bind, hx,
    bind_ok (sampleBits_ok 16 { x with rv := 0, bitcnt := 0 } (by rw [h2]; rfl)), look_bind, pure_run, h1]
  have hv : (sampled ({ x with rv := 0, bitcnt := 0 } : State) x.sig (samplesEvents x.sig (bitHeard s) 16) 16
      (rvAfter (bitHeard s) 0 16) (0 + BitVec.ofNat 6 16)).rv = heard s 0 := rvAfter_heard s 0
  rw [hv, rvAfter_heard, h2, regoutEvents, lsbFirst_heard]
  simp only [sampled, ← hx, drove, wireAfter_append, List.reverse_append, List.append_assoc]
  rfl

theorem seqRegout_error (s : State) (h : s.drv = .released) :
    seqRegout.run s = .error (.violation .driverClosed) s := by
  rw [seqRegout, bind_error (requireOpen_error s h)]

/-- An answer that stands next is the next value read: its bits come least significant first (R43, R86). -/
theorem heard_answer (s : State) (v : Reg16) (rest : List Bool) (h : s.sense = lsbFirst v ++ rest) :
    heard s 0 = v := by
  apply BitVec.eq_of_getLsbD_eq
  intro j hj
  rw [heard, getLsbD_ofLsbFirst]
  have hb : (s.sense[j]?).getD (Config.draw (s.draws + (j - s.sense.length))) = v.getLsbD j := by
    rw [h, List.getElem?_append_left (by simp [hj]), lsbFirst_getElem? v j hj]
    rfl
  simpa [hj, bitHeard] using hb

end Sys2Proof.Laws
end

