-- ==== Sys2Proof/Laws/Transfer.lean ====
section
/-! SUPPORT. What scripts, group reads, polls and group writes do on a driver the block owns: the acts of Safety.lean, the values
read, and nothing else but working registers. -/

namespace Sys2Proof.Laws

open Sys2Proof.Machine Sys2Proof.Safety

/-! ### Acts -/

theorem actsEvents_append (g : Signals) (a b : List Act) :
    actsEvents g (a ++ b) = actsEvents g a ++ actsEvents (actsAfter g a) b := by
  induction a generalizing g with
  | nil => rfl
  | cons x a ih => simp [actsEvents, actsAfter, ih]

theorem actsAfter_append (g : Signals) (a b : List Act) : actsAfter g (a ++ b) = actsAfter (actsAfter g a) b := by
  induction a generalizing g with
  | nil => rfl
  | cons x a ih => simp [actsAfter, ih]

theorem readsIn_append (a b : List Act) : readsIn (a ++ b) = readsIn a + readsIn b := by
  simp [readsIn]

/-- Acts done one list after the other. -/
theorem did_append (s : State) (a b : List Act) : did (did s a) b = did s (a ++ b) := by
  simp only [did, actsEvents_append, actsAfter_append, readsIn_append, wireAfter_append, List.drop_drop,
    List.length_drop, List.reverse_append, List.append_assoc, State.mk.injEq, true_and, and_true]
  constructor
  · congr 1
    omega
  · omega

theorem did_nil (s : State) : did s [] = s := by
  simp [did, actsAfter, actsEvents, wireAfter, readsIn]

/-- What the device answers after acts is what it had left to answer. -/
theorem heard_did (s : State) (as : List Act) (i : Nat) : heard (did s as) i = heard s (readsIn as + i) :=
  (congrFun (heard_congr (s := listened s (16 * readsIn as)) (t := did s as) rfl rfl) i).trans
    (heard_listened s (readsIn as) i)

theorem readsIn_sends (cs : List Cmd) : readsIn (sends cs) = 0 := by
  simp [readsIn, sends, Act.isRead]

theorem readsIn_command (first : Bool) (c : Cmd) : readsIn [.command first c] = 0 := rfl
theorem readsIn_read (v : Reg16) : readsIn [.read v] = 1 := rfl

theorem sends_append (a b : List Cmd) : sends (a ++ b) = sends a ++ sends b := by
  simp [sends]

/-- A delay is a waiting act (R12). -/
theorem delay_act {α : Type} (ms : Nat) (f : Unit → Op α) (s : State) :
    (delay ms >>= f).run s = (f ()).run (did s [.wait ms]) := by
  rw [delay_bind]
  congr 1
  simp [did, actsAfter, actsEvents, Act.events, Act.after, wireAfter, readsIn, Act.isRead]

/-! ### Working registers -/

/-- Some values of SEQ's working registers and the script item. -/
structure SeqRegs where
  cmdsr : BitVec 24
  first : Bool
  rv : BitVec 16
  bitcnt : BitVec 6
  item : Option Item

/-- The state with other values in SEQ's working registers. -/
def withSeq (s : State) (k : SeqRegs) : State :=
  { s with cmdsr := k.cmdsr, first := k.first, rv := k.rv, bitcnt := k.bitcnt, item := k.item }

/-- Some values of what a read may write besides. -/
structure ReadRegs extends SeqRegs where
  w : Group
  r : Regs6
  grp : Fin 17

/-- The state with other values in the working registers of a read. -/
def withRead (s : State) (k : ReadRegs) : State :=
  { withSeq s k.toSeqRegs with w := k.w, r := k.r, grp := k.grp }

/-- Some values of every working register. -/
structure WorkRegs extends ReadRegs where
  polln : Fin 21
  cfgi : Fin 13

/-- The state with other values in every working register. -/
def withWork (s : State) (k : WorkRegs) : State :=
  { withRead s k.toReadRegs with polln := k.polln, cfgi := k.cfgi }

theorem freeSeq_withSeq (s : State) (k : SeqRegs) : (withSeq s k).freeSeq = s.freeSeq := rfl
theorem freeRead_withRead (s : State) (k : ReadRegs) : (withRead s k).freeRead = s.freeRead := rfl
theorem freeWrite_withWork (s : State) (k : WorkRegs) : (withWork s k).freeWrite = s.freeWrite := rfl
theorem did_withSeq (s : State) (k : SeqRegs) (as : List Act) : did (withSeq s k) as = withSeq (did s as) k := rfl
theorem did_withRead (s : State) (k : ReadRegs) (as : List Act) : did (withRead s k) as = withRead (did s as) k := rfl
theorem did_withWork (s : State) (k : WorkRegs) (as : List Act) : did (withWork s k) as = withWork (did s as) k := rfl
theorem heard_withSeq (s : State) (k : SeqRegs) : heard (withSeq s k) = heard s := heard_congr rfl rfl
theorem heard_withRead (s : State) (k : ReadRegs) : heard (withRead s k) = heard s := heard_congr rfl rfl
theorem heard_withWork (s : State) (k : WorkRegs) : heard (withWork s k) = heard s := heard_congr rfl rfl
theorem withSeq_withSeq (s : State) (k l : SeqRegs) : withSeq (withSeq s k) l = withSeq s l := rfl
theorem withRead_withSeq (s : State) (k : ReadRegs) (l : SeqRegs) :
    withSeq (withRead s k) l = withRead s ⟨l, k.w, k.r, k.grp⟩ := rfl
theorem withSeq_withRead (s : State) (k : SeqRegs) (l : ReadRegs) : withRead (withSeq s k) l = withRead s l := rfl
theorem withRead_withRead (s : State) (k l : ReadRegs) : withRead (withRead s k) l = withRead s l := rfl
theorem withWork_withRead (s : State) (k : WorkRegs) (l : ReadRegs) :
    withRead (withWork s k) l = withWork s ⟨l, k.polln, k.cfgi⟩ := rfl
theorem withWork_withWork (s : State) (k l : WorkRegs) : withWork (withWork s k) l = withWork s l := rfl

/-- A state with its own working registers. -/
theorem withRead_self (s : State) :
    withRead s ⟨⟨s.cmdsr, s.first, s.rv, s.bitcnt, s.item⟩, s.w, s.r, s.grp⟩ = s := rfl

theorem withWork_self (s : State) :
    withWork s ⟨⟨⟨s.cmdsr, s.first, s.rv, s.bitcnt, s.item⟩, s.w, s.r, s.grp⟩, s.polln, s.cfgi⟩ = s := rfl

/-- A state of SEQ's registers is one of a read's. -/
theorem withSeq_eq_withRead (s : State) (k : SeqRegs) : withSeq s k = withRead s ⟨k, s.w, s.r, s.grp⟩ := rfl

theorem withRead_eq_withWork (s : State) (k : ReadRegs) : withRead s k = withWork s ⟨k, s.polln, s.cfgi⟩ := rfl

/-! ### Scripts -/

/-- An `Exec(c)` item (R13, R85). -/
theorem runExec_ok (c : Cmd) (s : State) (h : s.drv = .opened) :
    (runExec c).run s = .ok () (withSeq (did s [.command false c]) ⟨c, false, s.rv, 24, some (.exec c)⟩) := by
  simp only [runExec, loadItem, update_bind]
  rw [seqExec_ok _ _ _ (by exact h)]
  simp [drove, did, withSeq, actsEvents, actsAfter, Act.events, Act.after, readsIn, Act.isRead]

/-- A `RegOut` item (R13, R86): the next value the device drives. -/
theorem runRegout_ok (s : State) (h : s.drv = .opened) :
    runRegout.run s = .ok (heard s 0)
      (withSeq (did s [.read (heard s 0)]) ⟨s.cmdsr, s.first, heard s 0, 16, some .regOut⟩) := by
  have hh : heard { s with item := some .regOut } = heard s := heard_congr rfl rfl
  simp only [runRegout, loadItem, update_bind]
  rw [seqRegout_ok _ (by exact h), hh]
  simp [sampled, did, withSeq, actsEvents, actsAfter, Act.events, Act.after, readsIn, Act.isRead]

/-- A script of commands (R13). -/
theorem runCmds_ok (cs : List Cmd) (s : State) (h : s.drv = .opened) :
    ∃ k, (runCmds cs).run s = .ok () (withSeq (did s (sends cs)) k) := by
  induction cs generalizing s with
  | nil => exact ⟨⟨s.cmdsr, s.first, s.rv, s.bitcnt, s.item⟩, by rw [runCmds, pure_run, sends, List.map_nil, did_nil]; rfl⟩
  | cons c cs ih =>
    obtain ⟨k, hk⟩ := ih (withSeq (did s [.command false c]) ⟨c, false, s.rv, 24, some (.exec c)⟩) h
    exact ⟨k, by rw [runCmds, bind_ok (runExec_ok c s h), hk, did_withSeq, withSeq_withSeq, did_append]; rfl⟩

/-! ### Group reads -/

/-- `R[*]` after `n` register reads from index `j` on (R132). -/
def fillRegs (h : Nat → Reg16) (r : Regs6) (j : Nat) : Nat → Regs6
  | 0 => r
  | n + 1 => fillRegs h (setReg r j (h j)) (j + 1) n

theorem fillRegs_six (h : Nat → Reg16) (r : Regs6) : fillRegs h r 0 6 = groupRegs h := rfl

theorem readsIn_itemActs (h : Nat → Reg16) (is : List Item) (j : Nat) :
    readsIn (itemActs h is j) = is.count .regOut := by
  induction is generalizing j with
  | nil => rfl
  | cons i is ih =>
    cases i with
    | exec c => simpa [itemActs, readsIn, Act.isRead] using ih j
    | regOut =>
      rw [itemActs, List.count_cons_self, ← ih (j + 1), readsIn, List.countP_cons]
      rfl

theorem readItems_ok (is : List Item) (j : Nat) (s : State) (hd : s.drv = .opened) (h : Nat → Reg16)
    (hh : ∀ i, h (j + i) = heard s i) :
    ∃ k, (readItems is j).run s = .ok ()
      (withRead (did s (itemActs h is j)) ⟨k, s.w, fillRegs h s.r j (is.count .regOut), s.grp⟩) := by
  induction is generalizing j s with
  | nil =>
    exact ⟨⟨s.cmdsr, s.first, s.rv, s.bitcnt, s.item⟩, by
      rw [readItems, pure_run, itemActs, did_nil, List.count_nil, fillRegs, withRead_self]⟩
  | cons i is ih =>
    cases i with
    | exec c =>
      have hh' : ∀ i, h (j + i) = heard (withSeq (did s [.command false c]) ⟨c, false, s.rv, 24, some (.exec c)⟩) i := by
        intro i
        rw [heard_withSeq, heard_did, hh]
        rw [readsIn_command, Nat.zero_add]
      have hd' : (withSeq (did s [.command false c]) ⟨c, false, s.rv, 24, some (.exec c)⟩).drv = .opened := hd
      obtain ⟨k, hk⟩ := ih j _ hd' hh'
      rw [did_withSeq, did_append, withSeq_withRead] at hk
      exact ⟨k, by rw [readItems, bind_ok (runExec_ok c s hd)]; exact hk⟩
    | regOut =>
      have h0 : h j = heard s 0 := hh 0
      have hh' : ∀ i, h (j + 1 + i) = heard (withRead (did s [.read (h j)])
          ⟨⟨s.cmdsr, s.first, h j, 16, some .regOut⟩, s.w, setReg s.r j (h j), s.grp⟩) i := by
        intro i
        rw [heard_withRead, heard_did, Nat.add_assoc, hh, readsIn_read]
      have hd' : (withRead (did s [.read (h j)])
          ⟨⟨s.cmdsr, s.first, h j, 16, some .regOut⟩, s.w, setReg s.r j (h j), s.grp⟩).drv = .opened := hd
      obtain ⟨k, hk⟩ := ih (j + 1) _ hd' hh'
      rw [did_withRead, did_append, withRead_withRead] at hk
      refine ⟨k, ?_⟩
      rw [readItems, bind_ok (runRegout_ok s hd), update_bind, ← h0, List.count_cons_self, fillRegs]
      exact hk

theorem scripts_wf : Config.scripts.Wf := by
  rw [Config.scripts]
  split
  · assumption
  · exact ⟨by decide, by decide, by decide⟩

/-- READ_GROUP (R132). -/
theorem readGroup_ok (sc : Scripts) (hw : sc.Wf) (s : State) (hd : s.drv = .opened) :
    ∃ k, (readGroup sc).run s = .ok () (withRead (did s (itemActs (heard s) sc.gRead 0))
      ⟨k, unpackRegs (groupRegs (heard s)), groupRegs (heard s), s.grp⟩) := by
  obtain ⟨k, hk⟩ := readItems_ok sc.gRead 0 s hd (heard s) (fun i => by rw [Nat.zero_add])
  rw [hw.1, fillRegs_six] at hk
  exact ⟨k, by rw [readGroup, bind_ok hk]; rfl⟩

/-- The groups of a read (R131): the words in order, and nothing but working registers besides the acts. -/
theorem readGroups_ok (sc : Scripts) (hw : sc.Wf) (n g : Nat) (s : State) (hd : s.drv = .opened) :
    ∃ k, (readGroups sc n g).run s = .ok (groupsWords (heard s) n) (withRead (did s (groupsActs sc (heard s) n)) k) := by
  induction n generalizing g s with
  | zero => exact ⟨_, by rw [readGroups, pure_run, groupsActs, groupsWords, did_nil, withRead_self]⟩
  | succ n ih =>
    have hg : heard { s with grp := Fin.ofNat 17 g } = heard s := heard_congr rfl rfl
    obtain ⟨k, hk⟩ := readGroup_ok sc hw { s with grp := Fin.ofNat 17 g } hd
    rw [hg] at hk
    have hk' : (readGroup sc).run { s with grp := Fin.ofNat 17 g } = .ok ()
        (withRead (did s (itemActs (heard s) sc.gRead 0))
          ⟨k, unpackRegs (groupRegs (heard s)), groupRegs (heard s), Fin.ofNat 17 g⟩) := hk
    obtain ⟨l, hl⟩ := ih (g + 1) (withRead (did s (itemActs (heard s) sc.gRead 0))
          ⟨k, unpackRegs (groupRegs (heard s)), groupRegs (heard s), Fin.ofNat 17 g⟩) hd
    have hh : heard (withRead (did s (itemActs (heard s) sc.gRead 0))
          ⟨k, unpackRegs (groupRegs (heard s)), groupRegs (heard s), Fin.ofNat 17 g⟩) = fun i => heard s (6 + i) := by
      funext i
      rw [heard_withRead, heard_did, readsIn_itemActs, hw.1]
    rw [hh, did_withRead, withRead_withRead, did_append] at hl
    exact ⟨l, by rw [readGroups, setGrp, update_bind, bind_ok hk', look_bind, bind_ok hl]; rfl⟩

/-- A block read (R131, R133). -/
theorem readBlock_ok (sc : Scripts) (hw : sc.Wf) (a : Addr24) (n : Nat) (s : State) (hd : s.drv = .opened) :
    ∃ k, (readBlock sc a n).run s =
      .ok (groupsWords (heard s) n) (withRead (did s (readActs sc a n (heard s))) k) := by
  obtain ⟨k, hk⟩ := runCmds_ok (setupRd sc a) s hd
  obtain ⟨l, hl⟩ := readGroups_ok sc hw n 0 (withSeq (did s (sends (setupRd sc a))) k) hd
  have hh : heard (withSeq (did s (sends (setupRd sc a))) k) = heard s := by
    funext i
    rw [heard_withSeq, heard_did, readsIn_sends, Nat.zero_add]
  rw [hh, did_withSeq, did_append] at hl
  exact ⟨l, by rw [readBlock, bind_ok hk, hl]; rfl⟩

/-- READ_DEVID's script and group (R130). -/
theorem engReadDevid_ok (sc : Scripts) (hw : sc.Wf) (s : State) (hm : s.mode = .sessionOpen) (hd : s.drv = .opened) :
    ∃ k, (engReadDevid sc).run s =
      .ok [(unpackRegs (groupRegs (heard s))).w0, (unpackRegs (groupRegs (heard s))).w1]
        (withRead (did s (devidActs sc (heard s))) k) := by
  obtain ⟨k, hk⟩ := runCmds_ok sc.sDevid s hd
  obtain ⟨l, hl⟩ := runCmds_ok (setupRd sc sc.devidAddr) (withSeq (did s (sends sc.sDevid)) k) hd
  rw [did_withSeq, withSeq_withSeq, did_append] at hl
  obtain ⟨m, hm'⟩ := readGroup_ok sc hw (withSeq (did s (sends sc.sDevid ++ sends (setupRd sc sc.devidAddr))) l) hd
  have hh : heard (withSeq (did s (sends sc.sDevid ++ sends (setupRd sc sc.devidAddr))) l) = heard s := by
    funext i
    rw [heard_withSeq, heard_did, readsIn_append, readsIn_sends, readsIn_sends, Nat.zero_add]
  rw [hh, did_withSeq, did_append, withSeq_withRead, List.append_assoc] at hm'
  refine ⟨⟨m, unpackRegs (groupRegs (heard s)), groupRegs (heard s), s.grp⟩, ?_⟩
  rw [engReadDevid, requireSession, bind_ok (violateIf_false (by simp [hm])), bind_ok hk, bind_ok hl, bind_ok hm',
    look_bind]
  rfl

/-! ### The poll -/

theorem readsIn_pollActs (sc : Scripts) (h : Nat → Reg16) (n : Nat) : readsIn (pollActs sc h n) = n := by
  induction n generalizing h with
  | zero => rfl
  | succ n ih =>
    rw [pollActs, readsIn_append, readsIn_sends]
    have := ih (fun i => h (1 + i))
    simp only [readsIn, List.countP_cons, Act.isRead, if_true] at this ⊢
    omega

/-- One attempt (R135). -/
theorem pollAttempt_ok (sc : Scripts) (s : State) (hd : s.drv = .opened) :
    ∃ k, (pollAttempt sc).run s = .ok (pollDone (heard s 0))
      (withSeq (did s (sends sc.sStatus ++ [.read (heard s 0)])) k) := by
  obtain ⟨k, hk⟩ := runCmds_ok sc.sStatus s hd
  have hh : heard (withSeq (did s (sends sc.sStatus)) k) 0 = heard s 0 := by
    rw [heard_withSeq, heard_did, readsIn_sends]
  have hr := runRegout_ok (withSeq (did s (sends sc.sStatus)) k) hd
  rw [hh, did_withSeq, withSeq_withSeq, did_append] at hr
  exact ⟨_, by rw [pollAttempt, bind_ok hk, bind_ok hr, pure_run]⟩

theorem pollDone_eq (v : Reg16) : pollDone v = v.getLsbD 15 := by
  have h : (v &&& Config.pollMask).getLsbD 15 = v.getLsbD 15 := by
    rw [BitVec.getLsbD_and, show Config.pollMask.getLsbD 15 = true from by decide, Bool.and_true]
  rw [← h, pollDone]
  by_cases h0 : v &&& Config.pollMask = 0
  · simp [h0]
  · rw [bne_iff_ne.mpr h0]
    refine (Bool.eq_false_or_eq_true _).elim (fun hb => hb.symm) fun hb => ?_
    refine absurd ?_ h0
    apply BitVec.eq_of_getLsbD_eq
    intro i hi
    by_cases h15 : i = 15
    · subst h15; rw [hb]; rfl
    · have : Config.pollMask.getLsbD i = false := by
        have : i < 15 := by omega
        interval_cases i <;> decide
      rw [BitVec.getLsbD_and, this]
      simp

/-- The poll loop when an attempt sees the bit (R136, R137): no further attempt follows. -/
theorem pollLoop_done (sc : Scripts) (n k : Nat) (hk : k < n) (s : State) (hd : s.drv = .opened)
    (hf : FirstDoneAt (heard s) k) :
    ∃ q, (pollLoop sc n).run s = .ok true (withWork (did s (pollActs sc (heard s) (k + 1))) q) := by
  induction n generalizing k s with
  | zero => omega
  | succ n ih =>
    obtain ⟨q, hq⟩ := pollAttempt_ok sc { s with polln := Fin.ofNat 21 (Config.pollLimit - n) } hd
    have hh : heard { s with polln := Fin.ofNat 21 (Config.pollLimit - n) } = heard s := heard_congr rfl rfl
    rw [hh] at hq
    have hq' : (pollAttempt sc).run { s with polln := Fin.ofNat 21 (Config.pollLimit - n) } =
        .ok (pollDone (heard s 0)) (withWork (did s (sends sc.sStatus ++ [.read (heard s 0)]))
          ⟨⟨q, s.w, s.r, s.grp⟩, Fin.ofNat 21 (Config.pollLimit - n), s.cfgi⟩) := hq
    cases k with
    | zero =>
      have h1 : pollDone (heard s 0) = true := by rw [pollDone_eq]; exact hf.1
      rw [h1] at hq'
      exact ⟨_, by rw [pollLoop, setPolln, update_bind, bind_ok hq', if_pos rfl, pure_run]; rfl⟩
    | succ k =>
      have h1 : pollDone (heard s 0) = false := by rw [pollDone_eq]; exact hf.2 0 (by omega)
      rw [h1] at hq'
      have hn : heard (withWork (did s (sends sc.sStatus ++ [.read (heard s 0)]))
          ⟨⟨q, s.w, s.r, s.grp⟩, Fin.ofNat 21 (Config.pollLimit - n), s.cfgi⟩) = fun i => heard s (1 + i) := by
        funext i
        rw [heard_withWork, heard_did, readsIn_append, readsIn_sends, readsIn_read, Nat.zero_add]
      have hf' : FirstDoneAt (heard (withWork (did s (sends sc.sStatus ++ [.read (heard s 0)]))
          ⟨⟨q, s.w, s.r, s.grp⟩, Fin.ofNat 21 (Config.pollLimit - n), s.cfgi⟩)) k := by
        rw [hn]
        exact ⟨by simpa only [Nat.add_comm] using hf.1,
          fun j hj => by simpa only [Nat.add_comm] using hf.2 (j + 1) (by omega)⟩
      have hd' : (withWork (did s (sends sc.sStatus ++ [.read (heard s 0)]))
          ⟨⟨q, s.w, s.r, s.grp⟩, Fin.ofNat 21 (Config.pollLimit - n), s.cfgi⟩).drv = .opened := hd
      obtain ⟨l, hl⟩ := ih k (by omega) _ hd' hf'
      rw [hn, did_withWork, withWork_withWork, did_append] at hl
      refine ⟨l, ?_⟩
      rw [pollLoop, setPolln, update_bind, bind_ok hq', if_neg (by simp), hl]
      simp [pollActs]

/-- The poll loop when no attempt sees the bit (R136): all attempts are made, and nothing follows. -/
theorem pollLoop_never (sc : Scripts) (n : Nat) (s : State) (hd : s.drv = .opened)
    (hf : ∀ j < n, (heard s j).getLsbD 15 = false) :
    ∃ q, (pollLoop sc n).run s = .ok false (withWork (did s (pollActs sc (heard s) n)) q) := by
  induction n generalizing s with
  | zero => exact ⟨_, by rw [pollLoop, pure_run, pollActs, did_nil, withWork_self]⟩
  | succ n ih =>
    obtain ⟨q, hq⟩ := pollAttempt_ok sc { s with polln := Fin.ofNat 21 (Config.pollLimit - n) } hd
    have hh : heard { s with polln := Fin.ofNat 21 (Config.pollLimit - n) } = heard s := heard_congr rfl rfl
    rw [hh] at hq
    have hq' : (pollAttempt sc).run { s with polln := Fin.ofNat 21 (Config.pollLimit - n) } =
        .ok (pollDone (heard s 0)) (withWork (did s (sends sc.sStatus ++ [.read (heard s 0)]))
          ⟨⟨q, s.w, s.r, s.grp⟩, Fin.ofNat 21 (Config.pollLimit - n), s.cfgi⟩) := hq
    have h1 : pollDone (heard s 0) = false := by rw [pollDone_eq]; exact hf 0 (by omega)
    rw [h1] at hq'
    have hn : heard (withWork (did s (sends sc.sStatus ++ [.read (heard s 0)]))
        ⟨⟨q, s.w, s.r, s.grp⟩, Fin.ofNat 21 (Config.pollLimit - n), s.cfgi⟩) = fun i => heard s (1 + i) := by
      funext i
      rw [heard_withWork, heard_did, readsIn_append, readsIn_sends, readsIn_read, Nat.zero_add]
    obtain ⟨l, hl⟩ := ih (withWork (did s (sends sc.sStatus ++ [.read (heard s 0)]))
        ⟨⟨q, s.w, s.r, s.grp⟩, Fin.ofNat 21 (Config.pollLimit - n), s.cfgi⟩) hd (by
      rw [hn]
      intro j hj
      simpa only [Nat.add_comm] using hf (j + 1) (by omega))
    rw [hn, did_withWork, withWork_withWork, did_append] at hl
    refine ⟨l, ?_⟩
    rw [pollLoop, setPolln, update_bind, bind_ok hq', if_neg (by simp), hl]
    simp [pollActs]

/-- POLL succeeds at attempt `k + 1` (R136, R137). -/
theorem pollOrRaise_done (sc : Scripts) (e : Err) (k : Nat) (hk : k < 20) (s : State) (hd : s.drv = .opened)
    (hf : FirstDoneAt (heard s) k) :
    ∃ q, (pollOrRaise sc e).run s = .ok () (withWork (did s (pollActs sc (heard s) (k + 1))) q) := by
  obtain ⟨q, hq⟩ := pollLoop_done sc 20 k hk s hd hf
  exact ⟨q, by rw [pollOrRaise, bind_ok hq]; rfl⟩

/-- POLL times out after twenty attempts (R136, R137). -/
theorem pollOrRaise_never (sc : Scripts) (e : Err) (s : State) (hd : s.drv = .opened) (hf : NeverDone (heard s)) :
    ∃ q, (pollOrRaise sc e).run s = .error e (withWork (did s (pollActs sc (heard s) 20)) q) := by
  obtain ⟨q, hq⟩ := pollLoop_never sc 20 s hd hf
  exact ⟨q, by rw [pollOrRaise, bind_ok hq]; rfl⟩

/-! ### Writes -/

/-- WRITE_GROUP(g) (R128). -/
theorem writeGroup_ok (sc : Scripts) (d : List Word24) (g : Nat) (s : State) (hd : s.drv = .opened) :
    ∃ k, (writeGroup sc d g).run s =
      .ok () (withRead (did s (sends (loadRegs sc (packWords (groupOf d g)) ++ sc.sLatch))) k) := by
  obtain ⟨x, hx⟩ : ∃ x : ReadRegs, withRead s x = { s with w := groupOf d g, r := packWords (groupOf d g) } :=
    ⟨⟨⟨s.cmdsr, s.first, s.rv, s.bitcnt, s.item⟩, groupOf d g, packWords (groupOf d g), s.grp⟩, rfl⟩
  obtain ⟨k, hk⟩ := runCmds_ok (loadRegs sc (packWords (groupOf d g))) (withRead s x) hd
  rw [did_withRead, withRead_withSeq] at hk
  obtain ⟨l, hl⟩ := runCmds_ok sc.sLatch
    (withRead (did s (sends (loadRegs sc (packWords (groupOf d g))))) ⟨k, x.w, x.r, x.grp⟩) hd
  rw [did_withRead, withRead_withSeq, did_append, ← sends_append] at hl
  refine ⟨⟨l, x.w, x.r, x.grp⟩, ?_⟩
  rw [writeGroup, update_bind, update_bind, look_bind]
  rw [hx] at hk
  exact (bind_ok hk).trans hl

/-- The loads that WRITE_GROUP computes are those of the registers in order (R128). -/
theorem loadRegs_groupOf (sc : Scripts) (d : List Word24) (g : Nat) :
    loadRegs sc (packWords (groupOf d g)) = groupLoads sc d g := rfl

/-- The groups of a write (R138). -/
theorem writeGroups_ok (sc : Scripts) (d : List Word24) (n g : Nat) (s : State) (hd : s.drv = .opened) :
    ∃ k, (writeGroups sc d n g).run s = .ok () (withRead (did s (sends (groupCmds sc d n g))) k) := by
  induction n generalizing g s with
  | zero => exact ⟨_, by rw [writeGroups, pure_run, groupCmds, sends, List.map_nil, did_nil, withRead_self]⟩
  | succ n ih =>
    obtain ⟨k, hk⟩ := writeGroup_ok sc d g { s with grp := Fin.ofNat 17 g } hd
    obtain ⟨l, hl⟩ := ih (g + 1) (withRead (did { s with grp := Fin.ofNat 17 g }
      (sends (loadRegs sc (packWords (groupOf d g)) ++ sc.sLatch))) k) hd
    rw [did_withRead, withRead_withRead, did_append, ← sends_append] at hl
    refine ⟨l, ?_⟩
    rw [writeGroups, setGrp, update_bind, bind_ok hk, hl, groupCmds, loadRegs_groupOf, List.append_assoc]
    rfl

/-- WRITE_MEM up to its poll (R138). -/
theorem writeMem_start (sc : Scripts) (a : Addr24) (d : List Word24) (f : Unit → Op (List Word24)) (s : State)
    (hd : s.drv = .opened) :
    ∃ k, (runCmds (setupWr sc a) >>= fun _ => writeGroups sc d (Config.writeBlock / Config.groupWords) 0 >>= fun _ =>
        runCmds sc.sTriggerWr >>= fun _ => delay Config.tWriteSettle >>= f).run s =
      (f ()).run (withRead (did s (writeActs sc a d)) k) := by
  obtain ⟨k, hk⟩ := runCmds_ok (setupWr sc a) s hd
  obtain ⟨l, hl⟩ := writeGroups_ok sc d 16 0 (withSeq (did s (sends (setupWr sc a))) k) hd
  rw [did_withSeq, did_append, ← sends_append, withSeq_withRead] at hl
  obtain ⟨m, hm⟩ := runCmds_ok sc.sTriggerWr
    (withRead (did s (sends (setupWr sc a ++ groupCmds sc d 16 0))) l) hd
  rw [did_withRead, withRead_withSeq, did_append, ← sends_append, List.append_assoc] at hm
  refine ⟨⟨m, l.w, l.r, l.grp⟩, ?_⟩
  rw [bind_ok hk, show Config.writeBlock / Config.groupWords = 16 from rfl, bind_ok hl, bind_ok hm, delay_act,
    did_withRead, did_append]
  rfl

/-- One configuration word up to its poll (R139). -/
theorem cfgWord_start (sc : Scripts) (v : Word24) {α : Type} (f : Unit → Op α) (s : State) (hd : s.drv = .opened) :
    ∃ k, (runCmds (sc.loadCfg v) >>= fun _ => runCmds sc.sTriggerCfg >>= fun _ => delay Config.tCfgSettle >>= f).run s =
      (f ()).run (withSeq (did s (cfgWordActs sc v)) k) := by
  obtain ⟨k, hk⟩ := runCmds_ok (sc.loadCfg v) s hd
  obtain ⟨l, hl⟩ := runCmds_ok sc.sTriggerCfg (withSeq (did s (sends (sc.loadCfg v))) k) hd
  rw [did_withSeq, withSeq_withSeq, did_append, ← sends_append] at hl
  refine ⟨l, ?_⟩
  rw [bind_ok hk, bind_ok hl, delay_act, did_withSeq, did_append]
  rfl

theorem readsIn_cfgWordActs (sc : Scripts) (v : Word24) : readsIn (cfgWordActs sc v) = 0 := by
  rw [cfgWordActs, readsIn_append, readsIn_sends]
  rfl

theorem withWork_withSeq (s : State) (k : WorkRegs) (l : SeqRegs) :
    withSeq (withWork s k) l = withWork s ⟨⟨l, k.w, k.r, k.grp⟩, k.polln, k.cfgi⟩ := rfl

/-- A configuration word whose poll succeeds at attempt `k` (R139). -/
theorem cfgWord_ok (sc : Scripts) (v : Word24) (e : Err) (i k : Nat) (s : State) (hd : s.drv = .opened) (h1 : 1 ≤ k)
    (h20 : k ≤ 20) (hf : FirstDoneAt (heard s) (k - 1)) {α : Type} (f : Unit → Op α) :
    ∃ q, (setCfgi i >>= fun _ => runCmds (sc.loadCfg v) >>= fun _ => runCmds sc.sTriggerCfg >>= fun _ =>
        delay Config.tCfgSettle >>= fun _ => pollOrRaise sc e >>= f).run s =
      (f ()).run (withWork (did s (cfgWordActs sc v ++ pollActs sc (heard s) k)) q) := by
  obtain ⟨x, hx⟩ : ∃ x : WorkRegs, withWork s x = { s with cfgi := Fin.ofNat 13 i } :=
    ⟨⟨⟨⟨s.cmdsr, s.first, s.rv, s.bitcnt, s.item⟩, s.w, s.r, s.grp⟩, s.polln, Fin.ofNat 13 i⟩, rfl⟩
  obtain ⟨l, hl⟩ := cfgWord_start sc v (fun _ => pollOrRaise sc e >>= f) (withWork s x) hd
  rw [did_withWork, withWork_withSeq] at hl
  have hh : heard (withWork (did s (cfgWordActs sc v)) ⟨⟨l, x.w, x.r, x.grp⟩, x.polln, x.cfgi⟩) = heard s := by
    funext i
    rw [heard_withWork, heard_did, readsIn_cfgWordActs, Nat.zero_add]
  obtain ⟨q, hq⟩ := pollOrRaise_done sc e (k - 1) (by omega)
    (withWork (did s (cfgWordActs sc v)) ⟨⟨l, x.w, x.r, x.grp⟩, x.polln, x.cfgi⟩) hd (by rw [hh]; exact hf)
  rw [hh, did_withWork, withWork_withWork, did_append, Nat.sub_add_cancel h1] at hq
  refine ⟨q, ?_⟩
  rw [setCfgi, update_bind, ← hx, hl, bind_ok hq]

/-- A configuration word whose poll times out (R139, R141). -/
theorem cfgWord_error (sc : Scripts) (v : Word24) (e : Err) (i : Nat) (s : State) (hd : s.drv = .opened)
    (hf : NeverDone (heard s)) {α : Type} (f : Unit → Op α) :
    ∃ q, (setCfgi i >>= fun _ => runCmds (sc.loadCfg v) >>= fun _ => runCmds sc.sTriggerCfg >>= fun _ =>
        delay Config.tCfgSettle >>= fun _ => pollOrRaise sc e >>= f).run s =
      .error e (withWork (did s (cfgWordActs sc v ++ pollActs sc (heard s) 20)) q) := by
  obtain ⟨x, hx⟩ : ∃ x : WorkRegs, withWork s x = { s with cfgi := Fin.ofNat 13 i } :=
    ⟨⟨⟨⟨s.cmdsr, s.first, s.rv, s.bitcnt, s.item⟩, s.w, s.r, s.grp⟩, s.polln, Fin.ofNat 13 i⟩, rfl⟩
  obtain ⟨l, hl⟩ := cfgWord_start sc v (fun _ => pollOrRaise sc e >>= f) (withWork s x) hd
  rw [did_withWork, withWork_withSeq] at hl
  have hh : heard (withWork (did s (cfgWordActs sc v)) ⟨⟨l, x.w, x.r, x.grp⟩, x.polln, x.cfgi⟩) = heard s := by
    funext i
    rw [heard_withWork, heard_did, readsIn_cfgWordActs, Nat.zero_add]
  obtain ⟨q, hq⟩ := pollOrRaise_never sc e
    (withWork (did s (cfgWordActs sc v)) ⟨⟨l, x.w, x.r, x.grp⟩, x.polln, x.cfgi⟩) hd (by rw [hh]; exact hf)
  rw [hh, did_withWork, withWork_withWork, did_append] at hq
  refine ⟨q, ?_⟩
  rw [setCfgi, update_bind, ← hx, hl, bind_error hq]

/-- Configuration words, each polled with success after its number of attempts, and then the words left (R139). -/
theorem writeCfgWords_ok (sc : Scripts) (vs ws : List Word24) (ks : List Nat) (i : Nat) (s : State)
    (hd : s.drv = .opened) (hl : ks.length = vs.length) (hp : CfgPolled (heard s) ks) :
    ∃ q, (writeCfgWords sc (vs ++ ws) i).run s =
      (writeCfgWords sc ws (i + vs.length)).run (withWork (did s (cfgActs sc (heard s) vs ks)) q) := by
  induction vs generalizing ks i s with
  | nil => exact ⟨_, by rw [List.nil_append, List.length_nil, Nat.add_zero, cfgActs, did_nil, withWork_self]; simp⟩
  | cons v vs ih =>
    cases ks with
    | nil => simp at hl
    | cons k ks =>
      obtain ⟨h1, h20, hf, hp⟩ := hp
      obtain ⟨q, hq⟩ := cfgWord_ok sc v (.cfgTimeout i Config.pollLimit) i k s hd h1 h20 hf
        (fun _ => writeCfgWords sc (vs ++ ws) (i + 1))
      have hh : heard (withWork (did s (cfgWordActs sc v ++ pollActs sc (heard s) k)) q) = fun j => heard s (k + j) := by
        funext j
        rw [heard_withWork, heard_did, readsIn_append, readsIn_cfgWordActs, readsIn_pollActs, Nat.zero_add]
      obtain ⟨r, hr⟩ := ih ks (i + 1) (withWork (did s (cfgWordActs sc v ++ pollActs sc (heard s) k)) q) hd
        (by simpa using hl) (by rw [hh]; exact hp)
      rw [hh, did_withWork, withWork_withWork, did_append] at hr
      refine ⟨r, ?_⟩
      rw [List.cons_append, writeCfgWords, hq, hr, cfgActs, List.append_assoc, List.length_cons, Nat.add_assoc,
        Nat.add_comm 1]

end Sys2Proof.Laws
end

