-- ==== Sys2Proof/Laws/Acts.lean ====
section
/-! SUPPORT. What the bodies of the device operations do in EVERY outcome, raising or not, on a driver the block owns: some acts,
none of them a first frame, and working registers. -/

namespace Sys2Proof.Laws

open Sys2Proof.Machine Sys2Proof.Safety

/-- On an open driver the operation does acts and writes working registers, and does nothing else. -/
def DoesActs {α : Type} (x : Op α) : Prop :=
  ∀ s : State, s.drv = .opened → ∃ as q, (∀ a ∈ as, a.isFirst = false) ∧ endState (x.run s) = withWork (did s as) q

theorem doesActs_bind {α β : Type} {x : Op α} {f : α → Op β} (hx : DoesActs x) (hf : ∀ a, DoesActs (f a)) :
    DoesActs (x >>= f) := by
  intro s hd
  obtain ⟨as, q, h1, h2⟩ := hx s hd
  cases hr : x.run s with
  | ok a t =>
    rw [hr] at h2
    have ht : t = withWork (did s as) q := h2
    have hd' : t.drv = .opened := by rw [ht]; exact hd
    obtain ⟨bs, p, h3, h4⟩ := hf a t hd'
    refine ⟨as ++ bs, p, fun c hc => (List.mem_append.mp hc).elim (h1 c) (h3 c), ?_⟩
    rw [bind_ok hr, h4, ht, did_withWork, withWork_withWork, did_append]
  | error e t =>
    rw [hr] at h2
    exact ⟨as, q, h1, by rw [bind_error hr]; exact h2⟩

theorem doesActs_nothing {α : Type} {x : Op α} (h : ∀ s, ∃ q, endState (x.run s) = withWork s q) : DoesActs x := by
  intro s _
  obtain ⟨q, hq⟩ := h s
  exact ⟨[], q, by simp, by rw [did_nil, hq]⟩

theorem doesActs_pure {α : Type} (a : α) : DoesActs (pure a : Op α) :=
  doesActs_nothing fun s => ⟨_, (withWork_self s).symm⟩

theorem doesActs_raise {α : Type} (e : Err) : DoesActs (raise e : Op α) :=
  doesActs_nothing fun s => ⟨_, (withWork_self s).symm⟩

theorem doesActs_look : DoesActs look := doesActs_nothing fun s => ⟨_, (withWork_self s).symm⟩

theorem doesActs_violateIf (bad : State → Bool) (c : PvCause) : DoesActs (violateIf bad c) :=
  doesActs_nothing fun s => by
    cases h : bad s with
    | true => exact ⟨_, by rw [violateIf_true h]; exact (withWork_self s).symm⟩
    | false => exact ⟨_, by rw [violateIf_false h]; exact (withWork_self s).symm⟩

theorem doesActs_update {f : State → State} (h : ∀ s, ∃ q, f s = withWork s q) : DoesActs (update f) :=
  doesActs_nothing h

theorem doesActs_delay (ms : Nat) : DoesActs (delay ms) := by
  intro s _
  refine ⟨[.wait ms], ⟨⟨⟨s.cmdsr, s.first, s.rv, s.bitcnt, s.item⟩, s.w, s.r, s.grp⟩, s.polln, s.cfgi⟩,
    by simp [Act.isFirst], ?_⟩
  have h := delay_act ms (fun _ => (pure () : Op Unit)) s
  rw [pure_run] at h
  have h' : (delay ms).run s = .ok () (did s [.wait ms]) := h
  rw [h']
  exact (withWork_self _).symm

theorem doesActs_runExec (c : Cmd) : DoesActs (runExec c) := by
  intro s hd
  refine ⟨[.command false c], ⟨⟨⟨c, false, s.rv, 24, some (.exec c)⟩, s.w, s.r, s.grp⟩, s.polln, s.cfgi⟩,
    by simp [Act.isFirst], ?_⟩
  rw [runExec_ok c s hd]
  rfl

theorem doesActs_runRegout : DoesActs runRegout := by
  intro s hd
  refine ⟨[.read (heard s 0)],
    ⟨⟨⟨s.cmdsr, s.first, heard s 0, 16, some .regOut⟩, s.w, s.r, s.grp⟩, s.polln, s.cfgi⟩, by simp [Act.isFirst], ?_⟩
  rw [runRegout_ok s hd]
  rfl

theorem doesActs_runCmds (cs : List Cmd) : DoesActs (runCmds cs) := by
  induction cs with
  | nil => exact doesActs_pure ()
  | cons c cs ih => exact doesActs_bind (doesActs_runExec c) fun _ => ih

theorem doesActs_setW (f : State → Group) : DoesActs (update fun s => { s with w := f s }) :=
  doesActs_update fun s =>
    ⟨⟨⟨⟨s.cmdsr, s.first, s.rv, s.bitcnt, s.item⟩, f s, s.r, s.grp⟩, s.polln, s.cfgi⟩, rfl⟩

theorem doesActs_setR (f : State → Regs6) : DoesActs (update fun s => { s with r := f s }) :=
  doesActs_update fun s =>
    ⟨⟨⟨⟨s.cmdsr, s.first, s.rv, s.bitcnt, s.item⟩, s.w, f s, s.grp⟩, s.polln, s.cfgi⟩, rfl⟩

theorem doesActs_setGrp (g : Nat) : DoesActs (setGrp g) :=
  doesActs_update fun s =>
    ⟨⟨⟨⟨s.cmdsr, s.first, s.rv, s.bitcnt, s.item⟩, s.w, s.r, Fin.ofNat 17 g⟩, s.polln, s.cfgi⟩, rfl⟩

theorem doesActs_setPolln (n : Nat) : DoesActs (setPolln n) :=
  doesActs_update fun s =>
    ⟨⟨⟨⟨s.cmdsr, s.first, s.rv, s.bitcnt, s.item⟩, s.w, s.r, s.grp⟩, Fin.ofNat 21 n, s.cfgi⟩, rfl⟩

theorem doesActs_setCfgi (i : Nat) : DoesActs (setCfgi i) :=
  doesActs_update fun s =>
    ⟨⟨⟨⟨s.cmdsr, s.first, s.rv, s.bitcnt, s.item⟩, s.w, s.r, s.grp⟩, s.polln, Fin.ofNat 13 i⟩, rfl⟩

theorem doesActs_readItems (is : List Item) (j : Nat) : DoesActs (readItems is j) := by
  induction is generalizing j with
  | nil => exact doesActs_pure ()
  | cons i is ih =>
    cases i with
    | exec c => exact doesActs_bind (doesActs_runExec c) fun _ => ih j
    | regOut =>
      exact doesActs_bind doesActs_runRegout fun v =>
        doesActs_bind (doesActs_setR fun s => setReg s.r j v) fun _ => ih (j + 1)

theorem doesActs_readGroup (sc : Scripts) : DoesActs (readGroup sc) :=
  doesActs_bind (doesActs_readItems _ _) fun _ => doesActs_setW fun s => unpackRegs s.r

theorem doesActs_readGroups (sc : Scripts) (k g : Nat) : DoesActs (readGroups sc k g) := by
  induction k generalizing g with
  | zero => exact doesActs_pure _
  | succ k ih =>
    exact doesActs_bind (doesActs_setGrp g) fun _ => doesActs_bind (doesActs_readGroup sc) fun _ =>
      doesActs_bind doesActs_look fun _ => doesActs_bind (ih (g + 1)) fun _ => doesActs_pure _

theorem doesActs_readBlock (sc : Scripts) (a : Addr24) (k : Nat) : DoesActs (readBlock sc a k) :=
  doesActs_bind (doesActs_runCmds _) fun _ => doesActs_readGroups _ _ _

theorem doesActs_pollLoop (sc : Scripts) (n : Nat) : DoesActs (pollLoop sc n) := by
  induction n with
  | zero => exact doesActs_pure _
  | succ n ih =>
    refine doesActs_bind (doesActs_setPolln _) fun _ =>
      doesActs_bind (doesActs_bind (doesActs_runCmds _) fun _ => doesActs_bind doesActs_runRegout fun _ =>
        doesActs_pure _) fun done => ?_
    cases done with
    | true => exact doesActs_pure _
    | false => exact ih

theorem doesActs_pollOrRaise (sc : Scripts) (e : Err) : DoesActs (pollOrRaise sc e) := by
  refine doesActs_bind (doesActs_pollLoop _ _) fun done => ?_
  cases done with
  | true => exact doesActs_pure _
  | false => exact doesActs_raise _

theorem doesActs_writeGroups (sc : Scripts) (d : List Word24) (k g : Nat) : DoesActs (writeGroups sc d k g) := by
  induction k generalizing g with
  | zero => exact doesActs_pure _
  | succ k ih =>
    exact doesActs_bind (doesActs_setGrp g) fun _ =>
      doesActs_bind (doesActs_bind (doesActs_setW fun _ => groupOf d g) fun _ =>
        doesActs_bind (doesActs_setR fun s => packWords s.w) fun _ => doesActs_bind doesActs_look fun _ =>
        doesActs_bind (doesActs_runCmds _) fun _ => doesActs_runCmds _) fun _ => ih (g + 1)

theorem doesActs_writeCfgWords (sc : Scripts) (vs : List Word24) (i : Nat) : DoesActs (writeCfgWords sc vs i) := by
  induction vs generalizing i with
  | nil => exact doesActs_pure _
  | cons v vs ih =>
    exact doesActs_bind (doesActs_setCfgi i) fun _ => doesActs_bind (doesActs_runCmds _) fun _ =>
      doesActs_bind (doesActs_runCmds _) fun _ => doesActs_bind (doesActs_delay _) fun _ =>
      doesActs_bind (doesActs_pollOrRaise _ _) fun _ => ih (i + 1)

theorem doesActs_engReadDevid (sc : Scripts) : DoesActs (engReadDevid sc) :=
  doesActs_bind (doesActs_violateIf _ _) fun _ => doesActs_bind (doesActs_runCmds _) fun _ =>
    doesActs_bind (doesActs_runCmds _) fun _ => doesActs_bind (doesActs_readGroup _) fun _ =>
    doesActs_bind doesActs_look fun _ => doesActs_pure _

theorem doesActs_engReadMem (sc : Scripts) (a : Addr24) (n : Nat) : DoesActs (engReadMem sc a n) :=
  doesActs_bind (doesActs_violateIf _ _) fun _ => doesActs_bind (doesActs_violateIf _ _) fun _ =>
    doesActs_readBlock _ _ _

theorem doesActs_engReadCfg (sc : Scripts) : DoesActs (engReadCfg sc) :=
  doesActs_bind (doesActs_violateIf _ _) fun _ => doesActs_readBlock _ _ _

theorem doesActs_engWriteMem (sc : Scripts) (a : Addr24) (d : List Word24) : DoesActs (engWriteMem sc a d) :=
  doesActs_bind (doesActs_violateIf _ _) fun _ => doesActs_bind (doesActs_violateIf _ _) fun _ =>
    doesActs_bind (doesActs_runCmds _) fun _ => doesActs_bind (doesActs_writeGroups _ _ _ _) fun _ =>
    doesActs_bind (doesActs_runCmds _) fun _ => doesActs_bind (doesActs_delay _) fun _ =>
    doesActs_bind (doesActs_pollOrRaise _ _) fun _ => doesActs_pure _

theorem doesActs_engWriteCfg (sc : Scripts) (d : List Word24) : DoesActs (engWriteCfg sc d) :=
  doesActs_bind (doesActs_violateIf _ _) fun _ => doesActs_bind (doesActs_violateIf _ _) fun _ =>
    doesActs_bind (doesActs_runCmds _) fun _ => doesActs_bind (doesActs_writeCfgWords _ _ _) fun _ => doesActs_pure _

theorem doesActs_engErase (sc : Scripts) : DoesActs (engErase sc) :=
  doesActs_bind (doesActs_violateIf _ _) fun _ => doesActs_bind (doesActs_runCmds _) fun _ =>
    doesActs_bind (doesActs_runCmds _) fun _ => doesActs_bind (doesActs_delay _) fun _ => doesActs_pure _

/-- The levels acts leave: the clock low, reset and power as they were (R87). -/
theorem actsAfter_lines (g : Signals) (as : List Act) (h : g.clock = false) :
    (actsAfter g as).clock = false ∧ (actsAfter g as).reset = g.reset ∧ (actsAfter g as).power = g.power := by
  induction as generalizing g with
  | nil => exact ⟨h, rfl, rfl⟩
  | cons a as ih =>
    cases a with
    | command first c => exact ih (afterSix g c) rfl
    | read v => exact ih (afterRegout g) rfl
    | wait ms => exact ih g h

/-- The levels an EXEC and a REGOUT commit last are those they leave pending (R87). -/
theorem wireAfter_six (w : Option Signals) (g : Signals) (first : Bool) (c : Cmd) :
    wireAfter w (sixEvents g first c) = some (afterSix g c) := by
  cases first <;> rfl

theorem wireAfter_regout (w : Option Signals) (g : Signals) (v : Reg16) :
    wireAfter w (regoutEvents g v) = some (afterRegout g) := rfl

/-- Where the committed levels are the pending ones, acts keep it so. -/
theorem wireAfter_acts (g : Signals) (as : List Act) : wireAfter (some g) (actsEvents g as) = some (actsAfter g as) := by
  induction as generalizing g with
  | nil => rfl
  | cons a as ih =>
    rw [actsEvents, actsAfter, wireAfter_append]
    cases a with
    | command first c => rw [Act.events, Act.after, wireAfter_six, ih]
    | read v => rw [Act.events, Act.after, wireAfter_regout, ih]
    | wait ms => exact ih g

end Sys2Proof.Laws
end

