-- ==== Sys2Proof/Laws/PerInstr.lean ====
section
/-! SUPPORT. The family RoundTrip, one lemma per constructor: decoding the encoding of a well-formed instruction gives it back. -/

namespace Sys2Proof.Laws

open Sys2Proof.Machine (lsbFirst msbFirst ofLsbFirst)

/-- The low field of a concatenation. -/
theorem extract_low {m k : Nat} (x : BitVec m) (y : BitVec k) : (x ++ y).extractLsb' 0 k = y := by
  apply BitVec.eq_of_getLsbD_eq
  intro i hi
  rw [BitVec.getLsbD_extractLsb', BitVec.getLsbD_append]
  simp [hi]

/-- A field above the low part of a concatenation. -/
theorem extract_high {m k : Nat} (x : BitVec m) (y : BitVec k) (start len : Nat) (h : k ≤ start) :
    (x ++ y).extractLsb' start len = x.extractLsb' (start - k) len := by
  apply BitVec.eq_of_getLsbD_eq
  intro i hi
  rw [BitVec.getLsbD_extractLsb', BitVec.getLsbD_extractLsb', BitVec.getLsbD_append, if_neg (by omega),
    show start + i - k = start - k + i by omega]

/-- The whole of a vector. -/
theorem extract_all {m : Nat} (x : BitVec m) : x.extractLsb' 0 m = x := by
  apply BitVec.eq_of_getLsbD_eq
  intro i hi
  rw [BitVec.getLsbD_extractLsb']
  simp [hi]

theorem hdrOp_header (op : BitVec 4) (n : BitVec 7) (a : Addr24) : hdrOp (header op n a) = op := by
  rw [hdrOp, header, extract_high _ _ _ _ (by omega), extract_high _ _ _ _ (by omega),
    extract_high _ _ _ _ (by omega), extract_high _ _ _ _ (by omega)]
  exact extract_all op

theorem hdrN_header (op : BitVec 4) (n : BitVec 7) (a : Addr24) : hdrN (header op n a) = n := by
  rw [hdrN, header, extract_high _ _ _ _ (by omega), extract_high _ _ _ _ (by omega)]
  exact extract_low _ n

theorem hdrA_header (op : BitVec 4) (n : BitVec 7) (a : Addr24) : hdrA (header op n a) = a := extract_low _ a

theorem hdrReservedZero_header (op : BitVec 4) (n : BitVec 7) (a : Addr24) :
    hdrReservedZero (header op n a) = true := by
  have h1 : (header op n a).extractLsb' 55 5 = 0 := by
    rw [header, extract_high _ _ _ _ (by omega), extract_high _ _ _ _ (by omega), extract_high _ _ _ _ (by omega)]
    exact extract_low _ _
  have h2 : (header op n a).extractLsb' 24 24 = 0 := by
    rw [header, extract_high _ _ _ _ (by omega)]
    exact extract_low _ _
  rw [hdrReservedZero, h1, h2]
  rfl

/-- A primitive word's fields are read where they were written (R63). -/
theorem decodePrimitive_primWord_exec (first : Bool) (c : Cmd) :
    decodePrimitive (primWord 2 first c) = .ok (.execCmd first c) := by
  have hp : (primWord 2 first c).extractLsb' 30 2 = 2 := by
    rw [primWord, extract_high _ _ _ _ (by omega), extract_high _ _ _ _ (by omega), extract_high _ _ _ _ (by omega)]
    exact extract_all _
  have hz : (primWord 2 first c).extractLsb' 25 5 = 0 := by
    rw [primWord, extract_high _ _ _ _ (by omega), extract_high _ _ _ _ (by omega)]
    exact extract_low _ _
  have hf : (primWord 2 first c).getLsbD 24 = first := by
    rw [primWord, BitVec.getLsbD_append, if_neg (by omega), BitVec.getLsbD_append, if_pos (by omega)]
    simp
  have hc : (primWord 2 first c).extractLsb' 0 24 = c := extract_low _ c
  rw [decodePrimitive, hp, hz, hf, hc]
  rfl

namespace RoundTrip

/-- Decoding the word of a well-formed instruction gives the instruction. -/
def Statement (i : Instr) : Prop := i.wf = true → decode (encode i) = .ok i

theorem beginSession : Statement .beginSession := fun _ => by decide
theorem endSession : Statement .endSession := fun _ => by decide
theorem readDevid : Statement .readDevid := fun _ => by decide
theorem readCfg : Statement .readCfg := fun _ => by decide
theorem erase : Statement .erase := fun _ => by decide
theorem startDev : Statement .startDev := fun _ => by decide
theorem stopDev : Statement .stopDev := fun _ => by decide
theorem enter : Statement .enter := fun _ => by decide
theorem leave : Statement .leave := fun _ => by decide
theorem regout : Statement .regout := fun _ => by decide
theorem keyFrame : Statement .keyFrame := fun _ => by decide

theorem readMem (a : Addr24) (n : BitVec 7) : Statement (.readMem a n) := fun _ => by
  simp [encode, decode, decodeRequest, hdrOp_header, hdrN_header, hdrA_header, hdrReservedZero_header]

theorem writeMem (a : Addr24) (d : List Word24) : Statement (.writeMem a d) := fun h => by
  have h : d.length < 128 := by simpa [Instr.wf] using h
  simp [encode, decode, decodeRequest, hdrOp_header, hdrN_header, hdrA_header, hdrReservedZero_header,
    Nat.mod_eq_of_lt h]

theorem writeCfg (d : List Word24) : Statement (.writeCfg d) := fun h => by
  have h : d.length < 128 := by simpa [Instr.wf] using h
  simp [encode, decode, decodeRequest, hdrOp_header, hdrN_header, hdrA_header, hdrReservedZero_header,
    Nat.mod_eq_of_lt h]

theorem reservedOpAB (rest : BitVec 61) : Statement (.reservedOpAB rest) := fun _ => by
  have hop : hdrOp ((0b101 : BitVec 3) ++ rest) = (0b101 : BitVec 3) ++ BitVec.ofBool (rest.getLsbD 60) := by
    apply BitVec.eq_of_getLsbD_eq
    intro i hi
    have : i = 0 ∨ i = 1 ∨ i = 2 ∨ i = 3 := by omega
    rw [hdrOp, BitVec.getLsbD_extractLsb', BitVec.getLsbD_append, BitVec.getLsbD_append]
    rcases this with h | h | h | h <;> subst h <;> simp
  have hr : ((0b101 : BitVec 3) ++ rest).extractLsb' 0 61 = rest := extract_low _ rest
  rw [encode, decode, decodeRequest, hop, hr]
  cases rest.getLsbD 60 <;> rfl

theorem reservedOpCF (rest : BitVec 62) : Statement (.reservedOpCF rest) := fun _ => by
  have hop : hdrOp ((0b11 : BitVec 2) ++ rest) =
      (0b11 : BitVec 2) ++ BitVec.ofBool (rest.getLsbD 61) ++ BitVec.ofBool (rest.getLsbD 60) := by
    apply BitVec.eq_of_getLsbD_eq
    intro i hi
    have : i = 0 ∨ i = 1 ∨ i = 2 ∨ i = 3 := by omega
    rw [hdrOp, BitVec.getLsbD_extractLsb', BitVec.getLsbD_append, BitVec.getLsbD_append, BitVec.getLsbD_append]
    rcases this with h | h | h | h <;> subst h <;> simp
  have hr : ((0b11 : BitVec 2) ++ rest).extractLsb' 0 62 = rest := extract_low _ rest
  rw [encode, decode, decodeRequest, hop, hr]
  cases rest.getLsbD 60 <;> cases rest.getLsbD 61 <;> rfl

theorem execCmd (first : Bool) (c : Cmd) : Statement (.execCmd first c) := fun _ =>
  decodePrimitive_primWord_exec first c

theorem pack (w0 w1 w2 w3 : Word24) : Statement (.pack w0 w1 w2 w3) := fun _ => by
  have h0 : (w3 ++ w2 ++ w1 ++ w0).extractLsb' 0 24 = w0 := extract_low _ w0
  have h1 : (w3 ++ w2 ++ w1 ++ w0).extractLsb' 24 24 = w1 := by
    rw [extract_high _ _ _ _ (by omega)]
    exact extract_low _ w1
  have h2 : (w3 ++ w2 ++ w1 ++ w0).extractLsb' 48 24 = w2 := by
    rw [extract_high _ _ _ _ (by omega), extract_high _ _ _ _ (by omega)]
    exact extract_low _ w2
  have h3 : (w3 ++ w2 ++ w1 ++ w0).extractLsb' 72 24 = w3 := by
    rw [extract_high _ _ _ _ (by omega), extract_high _ _ _ _ (by omega), extract_high _ _ _ _ (by omega)]
    exact extract_all w3
  rw [encode, decode, decodeCodec, if_pos rfl, h0, h1, h2, h3]

theorem unpack (r0 r1 r2 r3 r4 r5 : Reg16) : Statement (.unpack r0 r1 r2 r3 r4 r5) := fun _ => by
  have h0 : (r5 ++ r4 ++ r3 ++ r2 ++ r1 ++ r0).extractLsb' 0 16 = r0 := extract_low _ r0
  have h1 : (r5 ++ r4 ++ r3 ++ r2 ++ r1 ++ r0).extractLsb' 16 16 = r1 := by
    rw [extract_high _ _ _ _ (by omega)]
    exact extract_low _ r1
  have h2 : (r5 ++ r4 ++ r3 ++ r2 ++ r1 ++ r0).extractLsb' 32 16 = r2 := by
    rw [extract_high _ _ _ _ (by omega), extract_high _ _ _ _ (by omega)]
    exact extract_low _ r2
  have h3 : (r5 ++ r4 ++ r3 ++ r2 ++ r1 ++ r0).extractLsb' 48 16 = r3 := by
    rw [extract_high _ _ _ _ (by omega), extract_high _ _ _ _ (by omega), extract_high _ _ _ _ (by omega)]
    exact extract_low _ r3
  have h4 : (r5 ++ r4 ++ r3 ++ r2 ++ r1 ++ r0).extractLsb' 64 16 = r4 := by
    rw [extract_high _ _ _ _ (by omega), extract_high _ _ _ _ (by omega), extract_high _ _ _ _ (by omega),
      extract_high _ _ _ _ (by omega)]
    exact extract_low _ r4
  have h5 : (r5 ++ r4 ++ r3 ++ r2 ++ r1 ++ r0).extractLsb' 80 16 = r5 := by
    rw [extract_high _ _ _ _ (by omega), extract_high _ _ _ _ (by omega), extract_high _ _ _ _ (by omega),
      extract_high _ _ _ _ (by omega), extract_high _ _ _ _ (by omega)]
    exact extract_all r5
  rw [encode, decode, decodeCodec, if_neg (by decide), h0, h1, h2, h3, h4, h5]

theorem sixFrame (c : Cmd) : Statement (.sixFrame c) := fun _ => by
  have h : ¬ (List.replicate 4 false ++ lsbFirst c = msbFirst Config.key) := fun h => by
    simpa using congrArg List.length h
  have hd : (List.replicate 4 false ++ lsbFirst c).drop 4 = lsbFirst c := rfl
  rw [encode, decode, decodeFrame, if_neg h, if_pos ⟨by simp, rfl⟩, hd, ofLsbFirst_lsbFirst]

theorem sixFirstFrame (c : Cmd) : Statement (.sixFirstFrame c) := fun _ => by
  have h : ¬ (List.replicate 9 false ++ lsbFirst c = msbFirst Config.key) := fun h => by
    simpa using congrArg List.length h
  have hd : (List.replicate 9 false ++ lsbFirst c).drop 9 = lsbFirst c := rfl
  rw [encode, decode, decodeFrame, if_neg h, if_neg (by simp), if_pos ⟨by simp, rfl⟩, hd, ofLsbFirst_lsbFirst]

theorem regoutFrame (r : Reg16) : Statement (.regoutFrame r) := fun _ => by
  have h : ¬ (true :: List.replicate 11 false ++ lsbFirst r = msbFirst Config.key) := fun h => by
    simpa using congrArg List.length h
  have hd : (true :: List.replicate 11 false ++ lsbFirst r).drop 12 = lsbFirst r := rfl
  rw [encode, decode, decodeFrame, if_neg h, if_neg (by simp [List.replicate]), if_neg (by simp),
    if_pos ⟨by simp, rfl⟩, hd, ofLsbFirst_lsbFirst]

end RoundTrip

end Sys2Proof.Laws
end

