-- ==== Sys2Proof/Tests/Slice0.lean ====
section
/-! SUPPORT. Tests, each expected result from the spec's encodings, rules or vectors (`95_test_vectors.md`, named V-…, S… or P…),
and the witnesses of the obligations' hypotheses. -/

namespace Sys2Proof.Tests

open Sys2Proof.Machine Sys2Proof.Safety Sys2Proof.Laws

/-! ### Helpers -/

/-- Idle is `State.reset` (R180). A block in Session, its lines at 1100 (R87, R111). -/
def session : State := { State.reset with drv := .opened, mode := .sessionOpen, sig := running, wire := some running }

/-- A block in Running (R113). -/
def atRun : State := { State.reset with drv := .opened, run := true, sig := running, wire := some running }

/-- A session in which the device will answer the given register values. -/
def answering (vs : List Reg16) : State := { session with sense := vs.flatMap lsbFirst }

/-- A state with one word pending. -/
def presented (s : State) (x : PortWord) : State := { s with pending := [x] }

/-- Something of the next state, if there is one. -/
def after {α : Type} (f : State → α) : Host.Outcome State Fault Refusal → Option α
  | .next t => some (f t)
  | .fault _ => none
  | .refused _ => none

/-- The information of the last response. -/
def lastInfo (s : State) : Option Err := (s.responses.head?).bind Response.info

/-- `Commit(RPDC)` from four digits. -/
def rpdc (r p d c : Nat) : Event := .commit ⟨r == 1, p == 1, d == 1, c == 1⟩

/-- The test instance `TP` of `95_test_vectors.md`: placeholder values, not device values. -/
def tp : Scripts where
  cmdNop := 0x000000
  sDevid := [0x000000]
  devidAddr := 0xFF0000
  sSetupRd hi lo := [0x200000 ||| (hi.zeroExtend 24 <<< 4), 0x200006 ||| (lo.zeroExtend 24 <<< 4)]
  gRead := [.exec 0x0000A1, .regOut, .regOut, .regOut, .regOut, .regOut, .regOut]
  sSetupWr hi lo := [0x200000 ||| (hi.zeroExtend 24 <<< 4), 0x200007 ||| (lo.zeroExtend 24 <<< 4)]
  tplLoadreg k := 0x200000 ||| BitVec.ofNat 24 k.val
  shLoadreg := 4
  sLatch := [0x0000A2]
  sTriggerWr := [0x0000A3]
  sStatus := [0x0000A4]
  sSetupCfgw a := [0x200000 ||| ((addrHi a).zeroExtend 24 <<< 4), 0x200007 ||| ((addrLo a).zeroExtend 24 <<< 4)]
  loadCfg v := [0x200000 ||| ((addrLo v).zeroExtend 24 <<< 4), 0x200001 ||| ((addrHi v).zeroExtend 24 <<< 4)]
  sTriggerCfg := [0x0000A5]
  sErase := [0x0000A6, 0x0000A7, 0x0000A8]
  sEraseTrigger := [0x0000A9, 0x0000AA]

/-- What an engine body yields and how many events it emits. -/
def outcome (x : Op (List Word24)) (s : State) : Except Err (List Word24) × Nat :=
  match x.run s with
  | .ok v t => (.ok v, t.trace.length)
  | .error e t => (.error e, t.trace.length)

/-! ### Well-formedness: the one check refuses the ill-formed term (R60) -/

theorem test_wf_writeMem_refuses : Instr.wf (.writeMem 0 (List.replicate 128 0)) = false := by decide +kernel
theorem test_wf_writeCfg_refuses : Instr.wf (.writeCfg (List.replicate 128 0)) = false := by decide +kernel
theorem test_wf_writeMem_admits : Instr.wf (.writeMem 0 (List.replicate 127 0)) = true := by decide +kernel

/-! ### Decoding: a word of every constructor, written out from R60 to R68 -/

/-- V-ENC-1. -/
theorem test_decode_begin : decode (.request 0x0000000000000000 []) = .ok .beginSession := by decide
/-- V-ENC-2. -/
theorem test_decode_end : decode (.request 0x1000000000000000 []) = .ok .endSession := by decide
/-- V-ENC-3. -/
theorem test_decode_readDevid : decode (.request 0x2000000000000000 []) = .ok .readDevid := by decide
/-- V-ENC-5. -/
theorem test_decode_readMem : decode (.request 0x3008000000012345 []) = .ok (.readMem 0x012345 8) := by decide
/-- V-ENC-9, with two data words. -/
theorem test_decode_writeMem :
    decode (.request 0x4002000000000400 [0xABCDEF, 1]) = .ok (.writeMem 0x000400 [0xABCDEF, 1]) := by decide
/-- V-ENC-11. -/
theorem test_decode_readCfg : decode (.request 0x5000000000000000 []) = .ok .readCfg := by decide
/-- V-ENC-12, with one data word. -/
theorem test_decode_writeCfg : decode (.request 0x6001000000000000 [7]) = .ok (.writeCfg [7]) := by decide
/-- V-ENC-14. -/
theorem test_decode_erase : decode (.request 0x7000000000000000 []) = .ok .erase := by decide
/-- V-ENC-15. -/
theorem test_decode_startDev : decode (.request 0x8000000000000000 []) = .ok .startDev := by decide
/-- V-ENC-16. -/
theorem test_decode_stopDev : decode (.request 0x9000000000000000 []) = .ok .stopDev := by decide
/-- P4: 0xB. -/
theorem test_decode_reservedAB : decode (.request 0xB000000000000000 []) = .ok (.reservedOpAB (1 <<< 60)) := by decide
/-- V-ENC-18. -/
theorem test_decode_reservedCF :
    decode (.request 0xF040000000000000 []) = .ok (.reservedOpCF 0x3040000000000000) := by decide
/-- R63: PRIM 0 and all else zero. -/
theorem test_decode_enter : decode (.primitive 0x00000000) = .ok .enter := by decide
/-- R63: PRIM 1 in bits 31..30. -/
theorem test_decode_leave : decode (.primitive 0x40000000) = .ok .leave := by decide
/-- R63: PRIM 2, FIRST in bit 24, the command below. -/
theorem test_decode_exec : decode (.primitive 0x81ABCDEF) = .ok (.execCmd true 0xABCDEF) := by decide
/-- R63: PRIM 3. -/
theorem test_decode_regout : decode (.primitive 0xC0000000) = .ok .regout := by decide
/-- R64: SEL 0; the operands as log 12 lays them out. -/
theorem test_decode_pack :
    decode (.codec 0 0xFFFFFF000000ABCDEF123456) = .ok (.pack 0x123456 0xABCDEF 0x000000 0xFFFFFF) := by decide
/-- R64: SEL 1. -/
theorem test_decode_unpack : decode (.codec 1 0x888866775555444422331111) =
    .ok (.unpack 0x1111 0x2233 0x4444 0x5555 0x6677 0x8888) := by decide
/-- R65: 01001101 01000011 01001000 01010001 as driven. -/
theorem test_decode_keyFrame : decode (.frame ([0, 1, 0, 0, 1, 1, 0, 1, 0, 1, 0, 0, 0, 0, 1, 1, 0, 1, 0, 0, 1, 0, 0, 0, 0, 1, 0,
    1, 0, 0, 0, 1].map (· == 1))) = .ok .keyFrame := by decide
/-- R66: 0000, then the command's bit 0 first. -/
theorem test_decode_sixFrame : decode (.frame ([0, 0, 0, 0, 1, 1, 0, 0, 0, 0, 0, 0, 0, 0, 0, 0, 0, 0, 0, 0, 0, 0, 0, 0, 0, 0, 0,
    1].map (· == 1))) = .ok (.sixFrame 0x800003) := by decide
/-- R67: 0000 00000, then the command's bit 0 first. -/
theorem test_decode_sixFirstFrame : decode (.frame ([0, 0, 0, 0, 0, 0, 0, 0, 0, 1, 0, 0, 0, 0, 0, 0, 0, 0, 0, 0, 0, 0, 0, 0, 0,
    0, 0, 0, 0, 0, 0, 1, 0].map (· == 1))) = .ok (.sixFirstFrame 0x400001) := by decide
/-- R68: 1 and eleven 0, then the register's bit 0 first. -/
theorem test_decode_regoutFrame : decode (.frame ([1, 0, 0, 0, 0, 0, 0, 0, 0, 0, 0, 0, 1, 1, 1, 0, 0, 0, 0, 0, 0, 0, 0, 0, 0, 0,
    0, 1].map (· == 1))) = .ok (.regoutFrame 0x8007) := by decide
/-- V-ENC-19 to V-ENC-24: a nonzero unused or reserved field. -/
theorem test_decode_fields : [(0x0000000000000001 : BitVec 64), 0x3840000000000000, 0x3080000000000000, 0x2004000000000000,
    0x600C000000F80000, 0x3000000001000000].all (fun h => decode (.request h []) == .error .irField) = true := by decide
/-- The opcode table's numbers, one for each port. -/
theorem test_decode_table :
    decodeTableWord 64 0x7000000000000000 = some .erase ∧ decodeTableWord 32 0x40000000 = some .leave ∧
    decodeTableWord 8 1 = some (.unpack 0 0 0 0 0 0) ∧ decodeTableWord 28 0x0800000 = some (.sixFrame 1) ∧
    decodeTableWord 40 0 = some (.sixFirstFrame 0) ∧ decodeTableWord 32 0x08000000 = some (.regoutFrame 0) ∧
    decodeTableWord 32 0x4D434851 = some .keyFrame := by decide
/-- R103, R14: a `w3` of 25 bits, a primitive word of 33 bits and a header of 65 are no words; `w3` of 24 bits is one. -/
theorem test_decode_table_width : decodeTableWord 8 (2 ^ 103) = some (.pack 0 0 0 0x800000) ∧
    decodeTableWord 8 (2 ^ 104) = none ∧ decodeTableWord 32 (2 ^ 32) = none ∧ decodeTableWord 64 (2 ^ 64) = none := by decide

/-! ### Text (R72): lines of the test programs and the words they give there -/

/-- P1, with its comment. -/
theorem test_text_begin :
    (assemble "BEGIN            ; HDR 0x0000000000000000".toList).map encode = some (.request 0 []) := by decide
/-- P2. -/
theorem test_text_read :
    (assemble "READ_MEM  0x000000, 64".toList).map encode = some (.request 0x3040000000000000 []) := by decide
/-- An alias, and the other form of a number. -/
theorem test_text_write : assemble "writeMemory 1024, 0xFFFFFF, 2".toList = some (.writeMem 0x400 [0xFFFFFF, 2]) := by decide
/-- V-SEQ-5's primitive. -/
theorem test_text_exec : assemble "EXEC 0x000000, FIRST".toList = some (.execCmd true 0) := by decide
/-- A value outside its type is no operand (R14). -/
theorem test_text_wide : assemble "READ_MEM 0x1000000, 4".toList = none := by decide

/-! ### The Sequencer -/

/-- V-SEQ-3: EXEC 0x000001 from 1100. -/
theorem test_exec_one : after State.trace (exec (.execCmd false 0x000001) session) = some
    ([rpdc 1 1 0 0] ++ (List.replicate 4 [rpdc 1 1 0 1, rpdc 1 1 0 0]).flatten ++ [rpdc 1 1 1 0, rpdc 1 1 1 1, rpdc 1 1 1 0] ++
      (List.replicate 23 [rpdc 1 1 0 0, rpdc 1 1 0 1, rpdc 1 1 0 0]).flatten).reverse := by decide +kernel
/-- V-SEQ-5: the first frame has five more padding clocks. -/
theorem test_exec_first : after State.trace (exec (.execCmd true 0x000000) session) = some
    ([rpdc 1 1 0 0] ++ (List.replicate 9 [rpdc 1 1 0 1, rpdc 1 1 0 0]).flatten ++
      (List.replicate 24 [rpdc 1 1 0 0, rpdc 1 1 0 1, rpdc 1 1 0 0]).flatten).reverse := by decide +kernel
/-- V-SEQ-7: REGOUT from 1110 with samples giving 0x8000. -/
theorem test_regout_trace : after State.trace (exec .regout
      { answering [0x8000] with sig := ⟨true, true, true, false⟩ }) = some
    ([rpdc 1 1 1 0, rpdc 1 1 1 1, rpdc 1 1 1 0, rpdc 1 1 0 0] ++
      (List.replicate 11 [rpdc 1 1 0 1, rpdc 1 1 0 0]).flatten ++
      (List.replicate 15 [rpdc 1 1 0 1, .sample false, rpdc 1 1 0 0]).flatten ++
      [rpdc 1 1 0 1, .sample true, rpdc 1 1 0 0]).reverse := by decide +kernel
/-- V-SEQ-8: samples 0,1 repeated. -/
theorem test_regout_value : after State.rv (exec .regout { session with sense := (List.replicate 8 [false, true]).flatten }) =
    some 0xAAAA := by decide +kernel
/-- V-SEQ-1: the ends of ENTER's trace. -/
theorem test_enter : after (fun t => (t.trace.length, t.trace.take 4, t.trace.reverse.take 9)) (exec .enter State.reset) = some
    (105, [.delay 30, rpdc 1 1 0 0, .delay 5, rpdc 0 1 0 0], [.driverOpen, rpdc 0 1 0 0, rpdc 0 1 0 0, rpdc 1 1 0 0,
      rpdc 0 1 0 0, rpdc 0 1 0 0, rpdc 0 1 0 1, rpdc 0 1 0 0, rpdc 0 1 1 0]) := by decide +kernel
/-- V-SEQ-2. -/
theorem test_enter_open : after lastInfo (exec .enter session) = some (some (.violation .driverOpen)) := by decide
/-- V-SEQ-9: data stays 1. -/
theorem test_leave : after State.trace (exec .leave { session with sig := ⟨true, true, true, false⟩ }) =
    some [.driverClose, rpdc 0 0 1 0, rpdc 0 1 1 0] := by decide
/-- R65: the 32 data-set values of the key. -/
theorem test_keyFrame : after (fun t => (t.trace.length, t.sig)) (exec .keyFrame session) =
    some (96, ⟨true, true, true, false⟩) := by decide +kernel
/-- R66: V-SEQ-6's last level. -/
theorem test_sixFrame : after (fun t => (t.trace.length, t.sig, t.first)) (exec (.sixFrame 0xFFFFFF) session) =
    some (81, ⟨true, true, true, false⟩, false) := by decide +kernel
/-- R67, R87. -/
theorem test_sixFirstFrame : after (fun t => (t.trace.length, t.cmdsr, t.first)) (exec (.sixFirstFrame 0x800000) session) =
    some (91, 0x800000, true) := by decide +kernel
/-- R68: r_0 is sampled first. -/
theorem test_regoutFrame : after (fun t => (t.rv, t.trace.countP isSample)) (exec (.regoutFrame 0x0001) session) =
    some (0x0001, 16) := by decide +kernel

/-! ### The Word Codec -/

/-- V-COD-1. -/
theorem test_pack : after State.codecOut (exec (.pack 0x123456 0xABCDEF 0x000000 0xFFFFFF) State.reset) =
    some (some (.regs ⟨0x3456, 0xAB12, 0xCDEF, 0x0000, 0xFF00, 0xFFFF⟩)) := by decide
/-- V-COD-3. -/
theorem test_pack_high : packWords ⟨0x800000, 0x010000, 0x00FFFF, 0xFF0000⟩ =
    ⟨0x0000, 0x0180, 0x0000, 0xFFFF, 0xFF00, 0x0000⟩ := by decide
/-- V-COD-7. -/
theorem test_unpack : after State.codecOut (exec (.unpack 0x1111 0x2233 0x4444 0x5555 0x6677 0x8888) State.reset) =
    some (some (.words ⟨0x331111, 0x224444, 0x775555, 0x668888⟩)) := by decide
/-- V-COD-8. -/
theorem test_unpack_high : unpackRegs ⟨0x0000, 0xFF00, 0x0000, 0x0000, 0x00FF, 0x0000⟩ =
    ⟨0x000000, 0xFF0000, 0xFF0000, 0x000000⟩ := by decide

/-! ### Session control -/

/-- V-SES-1, with `TP`'s first command. -/
theorem test_begin : outcome (engBegin tp) State.reset = (.ok [], 196) := by decide +kernel
/-- V-SES-3. -/
theorem test_begin_running : after lastInfo (exec .beginSession atRun) = some (some (.violation .running)) := by decide
/-- V-SES-4. -/
theorem test_end : after (fun t => (t.trace, t.mode, t.drv)) (exec .endSession session) =
    some ([.driverClose, rpdc 0 0 0 0, rpdc 0 1 0 0], .closed, .released) := by decide
/-- V-SES-6. -/
theorem test_end_running : after lastInfo (exec .endSession atRun) = some (some (.violation .noSession)) := by decide
/-- V-SES-7. -/
theorem test_startDev : after (fun t => (t.trace, t.run)) (exec .startDev State.reset) =
    some ([rpdc 1 1 0 0, .driverOpen], true) := by decide
/-- V-SES-8. -/
theorem test_startDev_session : after (fun t => (lastInfo t, t.fatal)) (exec .startDev session) =
    some (some (.violation .sessionOpen), true) := by decide
/-- V-SES-10. -/
theorem test_stopDev : after (fun t => (t.trace, t.run)) (exec .stopDev atRun) =
    some ([.driverClose, rpdc 0 0 0 0], false) := by decide
/-- V-SES-12. -/
theorem test_stopDev_session : after lastInfo (exec .stopDev session) = some (some (.violation .notRunning)) := by decide
/-- V-ENC-17. -/
theorem test_reservedAB : after (fun t => (t.status.code, lastInfo t, t.fatal, t.trace)) (exec (.reservedOpAB 0) session) =
    some (3, some (.illegal .opcode), true, []) := by decide
/-- V-ENC-18: IR_OPCODE, though fields are nonzero. -/
theorem test_reservedCF : after lastInfo (exec (.reservedOpCF 0x3040000000000000) session) =
    some (some (.illegal .opcode)) := by decide
/-- The information values of R162 and R164. -/
theorem test_codes : [PvCause.driverOpen, .driverClosed, .sessionOpen, .running, .noSession, .notRunning, .count].map PvCause.code =
    [1, 2, 3, 4, 5, 6, 7] ∧ [IrCause.opcode, .field].map IrCause.code = [1, 2] ∧
    [Status.ok, .preconditionViolation, .writeTimeout, .illegalRequest].map Status.code = [0, 1, 2, 3] := by decide

/-! ### Device operations, under `TP` -/

/-- `TP` is well formed (D38). -/
theorem test_tp_wf : tp.Wf := by decide
/-- V-RD-1: the commands of the address load. -/
theorem test_setupRd : setupRd tp 0x012345 = [0x200010, 0x223456] := by decide
/-- V-RD-1: result and events. -/
theorem test_readMem : outcome (engReadMem tp 0x012345 4) (answering [0x0000, 0x0000, 0x0001, 0x0002, 0x0000, 0x0003]) =
    (.ok [0, 1, 2, 3], 687) := by decide +kernel
/-- V-ENC-6, V-RD-7: the session is checked before the count. -/
theorem test_readMem_count : after lastInfo (exec (.readMem 0 5) session) = some (some (.violation .count)) ∧
    after lastInfo (exec (.readMem 0 5) State.reset) = some (some (.violation .noSession)) := by decide
/-- V-RD-3. -/
theorem test_readDevid : outcome (engReadDevid tp) (answering [0x0800, 0x0000, 0x1234, 0x0000, 0x0000, 0x0000]) =
    (.ok [0x000800, 0x001234], 768) := by decide +kernel
/-- V-RD-4. -/
theorem test_readCfg : outcome (engReadCfg tp) (answering (List.replicate 18 0xFFFF)) =
    (.ok (List.replicate 12 0xFFFFFF), 1737) := by decide +kernel
/-- V-WR-1: group 1 of the words 0 to 63. -/
theorem test_writeGroup : loadRegs tp (packWords (groupOf ((List.range 64).map (BitVec.ofNat 24)) 1)) =
    [0x200040, 0x200001, 0x200052, 0x200063, 0x200004, 0x200075] := by decide
/-- V-ENC-10. -/
theorem test_writeMem_count : after lastInfo (exec (.writeMem 0 (List.replicate 63 0)) session) =
    some (some (.violation .count)) := by decide
/-- V-POL-3, V-POL-6: two attempts, and twenty. -/
theorem test_poll : (match (pollLoop tp 20).run (answering [0x7FFF, 0x8001]) with
      | .ok b t => some (b, t.trace.length)
      | .error _ _ => none) = some (true, 310) ∧
    (match (pollLoop tp 20).run (answering (List.replicate 20 0x7FFF)) with
      | .ok b t => some (b, t.trace.length)
      | .error _ _ => none) = some (false, 3100) := by decide +kernel
/-- V-WR-6: word 2 times out. -/
theorem test_writeCfg_timeout : outcome (engWriteCfg tp (0xABCDEF :: List.replicate 11 0))
      (answering (0x8000 :: 0x8000 :: List.replicate 20 0)) = (.error (.cfgTimeout 2 20), 4304) := by decide +kernel
/-- V-ENC-13. -/
theorem test_writeCfg_count : after lastInfo (exec (.writeCfg (List.replicate 11 0)) session) =
    some (some (.violation .count)) := by decide
/-- V-WR-7. -/
theorem test_erase : outcome (engErase tp) session = (.ok [], 406) := by decide +kernel
/-- R41: the source's word addresses are half the device addresses. -/
theorem test_regions : Config.cfgBase.toNat / 2 = 0x7C0000 ∧ Config.peBase.toNat / 2 = 0x400000 := by decide

/-! ### Witnesses: states and operands that meet the hypotheses of the obligations, clause by clause -/

/-- Sixteen low bits: one register read of zero. -/
def lowBits (n : Nat) : List Bool := List.replicate (16 * n) false

/-- A device that sets bit 15 at attempt `k + 1` of the first poll. -/
def doneAt (k : Nat) : State := { session with sense := lowBits k ++ List.replicate 16 true }

/-- A device that sets bit 15 at every read of `n`. -/
def alwaysDone (n : Nat) : State := { session with sense := List.replicate (16 * n) true }

/-- A device that sets bit 15 at `n` reads, and then never in the next twenty. -/
def neverAfter (n : Nat) : State := { session with sense := List.replicate (16 * n) true ++ lowBits 20 }

theorem witness_DecodeOfEncode : Instr.wf (.writeMem 0xFFFFFF (List.replicate 127 0xFFFFFF)) = true ∧
    Instr.wf (.writeCfg []) = true ∧ Instr.wf (.execCmd true 0xFFFFFF) = true := by decide +kernel

theorem witness_DecodedRequestReencodes :
    (Conforms 0x6001000000000000 [7] ∧ decode (.request 0x6001000000000000 [7]) = .ok (.writeCfg [7])) ∧
    (Conforms 0xFFFFFFFFFFFFFFFF [] ∧ decode (.request 0xFFFFFFFFFFFFFFFF []) = .ok (.reservedOpCF 0x3FFFFFFFFFFFFFFF)) := by
  unfold Conforms
  decide +kernel

/-- The first clause at 0xA and at 0xF, the second at 0x9 and at 0x0, the third at 0x9 and at 0x0. -/
theorem witness_HeaderIsOperationOrIllegal :
    (∀ h : BitVec 64, (presented State.reset (.request h [])).pending = .request h [] :: []) ∧
    (Conforms 0xA000000000000000 [] ∧ 10 ≤ (hdrOp 0xA000000000000000).toNat) ∧
    (Conforms 0xF040000000000000 [] ∧ 10 ≤ (hdrOp 0xF040000000000000).toNat) ∧
    (Conforms 0x9000000000000001 [] ∧ (hdrOp 0x9000000000000001).toNat < 10 ∧ unusedZero 0x9000000000000001 = false) ∧
    (Conforms 0x0000000001000000 [] ∧ (hdrOp 0x0000000001000000).toNat < 10 ∧ unusedZero 0x0000000001000000 = false) ∧
    (Conforms 0x9000000000000000 [] ∧ (hdrOp 0x9000000000000000).toNat < 10 ∧ unusedZero 0x9000000000000000 = true) ∧
    (Conforms 0x6001000000000000 [7] ∧ (hdrOp 0x6001000000000000).toNat < 10 ∧ unusedZero 0x6001000000000000 = true) := by
  exact ⟨fun _ => rfl, ⟨rfl, by decide⟩, ⟨rfl, by decide⟩, ⟨rfl, by decide, by decide⟩, ⟨rfl, by decide, by decide⟩,
    ⟨rfl, by decide, by decide⟩, ⟨rfl, by decide, by decide⟩⟩

theorem witness_AliasesAssembleAlike : ("READ_MEM", "readMemory") ∈ aliases ∧
    (∀ c ∈ (" 0, 4".toList).head?, isBlank c = true ∨ c = ';') ∧ (∀ c ∈ (";".toList).head?, isBlank c = true ∨ c = ';') ∧
    (∀ c ∈ ([] : List Char).head?, isBlank c = true ∨ c = ';') :=
  ⟨by decide, by simp [isBlank], by simp, by simp⟩

theorem witness_StepRunsDecoded : (presented State.reset (.primitive 0)).pending = .primitive 0 :: [] ∧
    decode (.primitive 0) = .ok .enter := by decide

theorem witness_TableWordRunsNext : decodeTableWord 64 0 = some .beginSession := by decide

theorem witness_IdleStepHoldsState : State.reset.pending = [] := rfl

/-- Each of the three words, and a step that refuses. -/
theorem witness_UnpresentableWordsRefused :
    decode (.request 0x4001000000000000 []) = .error .dataCount ∧ decode (.primitive 0x00000001) = .error .reservedPrimitive ∧
    decode (.frame [true]) = .error .unknownFrame ∧
    step (presented State.reset (.frame [true])) = .refused .unknownFrame :=
  ⟨by decide, by decide, by decide, rfl⟩

/-- The hypotheses on the driver: EnterEffect, LeaveEffect, ExecEffect, RegoutEffect, PrimitivesCheckDriver, FramesAsOriginated,
PrimitiveEventCounts; with the clock low, its clause about LEAVE. -/
theorem witness_driver : State.reset.drv = .released ∧ State.reset.sig.clock = false ∧
    session.drv = .opened ∧ session.sig.clock = false := by decide

theorem witness_RegoutReturnsAnswer : (answering [0x8001, 0x0002]).drv = .opened ∧
    (answering [0x8001, 0x0002]).sense = Machine.lsbFirst (0x8001 : Reg16) ++ Machine.lsbFirst (0x0002 : Reg16) := by decide

/-- The control states: BeginEffect, EndEffect, StartDevEffect, StopDevEffect, DeviceOpsNeedSession, CountsAreChecked, ReadCfgEffect,
ReadDevidEffect, EraseEffect. -/
theorem witness_control : Idle State.reset ∧ Session session ∧ Running atRun ∧ (atRun.mode = .closed ∧ atRun.run = true) ∧
    session.mode = .sessionOpen ∧ State.reset.mode = .closed ∧ session.run = false ∧ isDeviceOp .erase = true := by
  refine ⟨⟨rfl, rfl, rfl⟩, ⟨rfl, rfl, rfl⟩, ⟨rfl, rfl, rfl⟩, ⟨rfl, rfl⟩, rfl, rfl, rfl, rfl⟩

/-- CountsAreChecked at the counts next to the legal ones; ReadMemEffect, ReadTraceRepeats and TraceLengths at 4 and 64. -/
theorem witness_counts :
    ((0 : BitVec 7).toNat = 0 ∧ (63 : BitVec 7).toNat % 4 ≠ 0 ∧ 64 < (68 : BitVec 7).toNat) ∧
    ((List.replicate 63 (0 : Word24)).length ≠ 64 ∧ (List.replicate 11 (0 : Word24)).length ≠ 12) ∧
    (0 < (4 : BitVec 7).toNat ∧ (4 : BitVec 7).toNat % 4 = 0 ∧ (4 : BitVec 7).toNat ≤ 64) ∧
    (0 < (64 : BitVec 7).toNat ∧ (64 : BitVec 7).toNat % 4 = 0 ∧ (64 : BitVec 7).toNat ≤ 64) := by decide

/-- One group and sixteen. -/
theorem witness_ReadMemReturnsAnswers : Session (answering [0, 0, 1, 2, 0, 3]) ∧ (4 : BitVec 7).toNat = 4 * 1 ∧
    (answering [0, 0, 1, 2, 0, 3]).sense = [(⟨0, 0, 1, 2, 0, 3⟩ : Regs6)].flatMap regsBits ++ [] ∧
    (64 : BitVec 7).toNat = 4 * (List.replicate 16 (⟨0, 0, 1, 2, 0, 3⟩ : Regs6)).length :=
  ⟨⟨rfl, rfl, rfl⟩, rfl, rfl, rfl⟩

/-- Two sessions that differ in a line level and in their past. -/
theorem witness_ReadTraceRepeats :
    Session session ∧ LinesOk session ∧
    Session { session with sig := ⟨true, true, true, false⟩, wire := some ⟨true, true, true, false⟩, fatal := true } ∧
    LinesOk { session with sig := ⟨true, true, true, false⟩, wire := some ⟨true, true, true, false⟩, fatal := true } ∧
    ∀ i, heard session i =
      heard { session with sig := ⟨true, true, true, false⟩, wire := some ⟨true, true, true, false⟩, fatal := true } i :=
  ⟨⟨rfl, rfl, rfl⟩, ⟨rfl, fun h => (by cases h), fun _ => ⟨rfl, rfl, rfl⟩⟩, ⟨rfl, rfl, rfl⟩,
    ⟨rfl, fun h => (by cases h), fun _ => ⟨rfl, rfl, rfl⟩⟩, fun _ => rfl⟩

theorem witness_EchoedBlockReadsBack :
    Session { session with
      sense := (List.range 16).flatMap fun g => regsBits (packWords (groupOf ((List.range 64).map (BitVec.ofNat 24)) g)) } ∧
    ((List.range 64).map (BitVec.ofNat 24)).length = 64 := ⟨⟨rfl, rfl, rfl⟩, by decide⟩

/-- A poll that succeeds at the first attempt, one that succeeds at the last, one that never does. -/
theorem witness_WriteMemEffect : Session (doneAt 0) ∧ FirstDoneAt (heard (doneAt 0)) 0 ∧ Session (doneAt 19) ∧
    FirstDoneAt (heard (doneAt 19)) 19 ∧ Session (neverAfter 0) ∧ NeverDone (heard (neverAfter 0)) ∧
    (List.replicate 64 (0 : Word24)).length = 64 := by
  refine ⟨⟨rfl, rfl, rfl⟩, ?_, ⟨rfl, rfl, rfl⟩, ?_, ⟨rfl, rfl, rfl⟩, ?_, rfl⟩
  · simp only [FirstDoneAt, heard_bit _ _ 15 (by decide)]; decide +kernel
  · simp only [FirstDoneAt, heard_bit _ _ 15 (by decide)]; decide +kernel
  · simp only [NeverDone, heard_bit _ _ 15 (by decide)]; decide +kernel

/-- Every word's first attempt; one word's last. -/
theorem witness_WriteCfgEffect : Session (alwaysDone 12) ∧ CfgPolled (heard (alwaysDone 12)) (List.replicate 12 1) ∧
    (List.replicate 12 (0 : Word24)).length = 12 ∧ CfgPolled (heard (doneAt 19)) [20] := by
  refine ⟨⟨rfl, rfl, rfl⟩, ?_, rfl, ?_⟩
  · simp only [List.replicate, CfgPolled, FirstDoneAt, heard_bit _ _ 15 (show 15 < 16 by decide)]; decide +kernel
  · simp only [CfgPolled, FirstDoneAt, heard_bit _ _ 15 (show 15 < 16 by decide)]; decide +kernel

/-- The first word times out, and the last. -/
theorem witness_WriteCfgTimesOut :
    (Session (neverAfter 0) ∧ CfgPolled (heard (neverAfter 0)) [] ∧ NeverDone (fun j => heard (neverAfter 0) (0 + j)) ∧
      (List.replicate 12 (5 : Word24))[0]? = some 5) ∧
    (Session (neverAfter 11) ∧ CfgPolled (heard (neverAfter 11)) (List.replicate 11 1) ∧
      NeverDone (fun j => heard (neverAfter 11) ((List.replicate 11 1).sum + j)) ∧
      (List.replicate 12 (5 : Word24))[11]? = some 5) := by
  refine ⟨⟨⟨rfl, rfl, rfl⟩, trivial, ?_, rfl⟩, ⟨⟨rfl, rfl, rfl⟩, ?_, ?_, rfl⟩⟩
  · simp only [NeverDone, heard_bit _ _ 15 (by decide)]; decide +kernel
  · simp only [List.replicate, CfgPolled, FirstDoneAt, heard_bit _ _ 15 (show 15 < 16 by decide)]; decide +kernel
  · simp only [NeverDone, heard_bit _ _ 15 (by decide)]; decide +kernel

/-- A record with the widest shift, and a bit below, in and above its field. -/
theorem witness_LoadCommandHoldsValue : Scripts.Wf { Config.emptyScripts with shLoadreg := 8 } ∧ tp.Wf ∧
    (0 < tp.shLoadreg ∧ tp.shLoadreg + 16 ≤ 20 ∧ 20 < 24) := by decide

theorem witness_DeviceOpsSendNoFirstFrame : ControlOk session ∧ isDeviceOp .erase = true ∧ ∃ t, exec .erase session = .next t :=
  ⟨.inr (.inl ⟨rfl, rfl, rfl⟩), rfl, serve_next State.freeSeq (engErase Config.scripts) session⟩

theorem witness_ResponseStatusFatal : isRequest .beginSession = true ∧ ∃ t, exec .beginSession State.reset = .next t :=
  ⟨rfl, serve_next State.freeSeq (engBegin Config.scripts) State.reset⟩

theorem witness_ViolationChangesNothingElse : ControlOk State.reset ∧ isRequest .endSession = true ∧
    ∃ t, exec .endSession State.reset = .next t ∧ t.status = .preconditionViolation :=
  ⟨.inl ⟨rfl, rfl, rfl⟩, rfl, _, rfl, rfl⟩

/-- A WRITE_MEM that times out. -/
theorem witness_TimeoutOnlyFromWrites : ControlOk (neverAfter 0) ∧
    ∃ t, exec (.writeMem 0 (List.replicate 64 0)) (neverAfter 0) = .next t ∧ t.status = .writeTimeout := by
  refine ⟨.inr (.inl ⟨rfl, rfl, rfl⟩), ?_⟩
  obtain ⟨x, hx⟩ := writeMem_start Config.scripts 0 (List.replicate 64 0)
    (fun _ => pollOrRaise Config.scripts (.blockTimeout Config.pollLimit) >>= fun _ => pure []) (neverAfter 0) rfl
  have hh : heard (withRead (did (neverAfter 0) (writeActs Config.scripts 0 (List.replicate 64 0))) x) = heard (neverAfter 0) := by
    funext i
    rw [heard_withRead, heard_did, writeActs, readsIn_append, readsIn_sends]
    simp [readsIn, Act.isRead]
  obtain ⟨q, hq⟩ := pollOrRaise_never Config.scripts (.blockTimeout Config.pollLimit)
    (withRead (did (neverAfter 0) (writeActs Config.scripts 0 (List.replicate 64 0))) x) rfl
    (by rw [hh]; exact witness_WriteMemEffect.2.2.2.2.2.1)
  rw [exec, execWriteMem, serve, engWriteMem, requireSession, bind_ok (violateIf_false rfl), bind_ok (violateIf_false rfl), hx,
    bind_error hq]
  exact ⟨_, rfl, rfl⟩

theorem witness_EveryRequestIsAnswered :
    (presented State.reset (.request 0x6001000000000000 [7])).pending = .request 0x6001000000000000 [7] :: [] ∧
    Conforms 0x6001000000000000 [7] := ⟨rfl, rfl⟩

/-- END in Session: the invariants hold and the step answers. -/
theorem witness_StepKeepsControl : Inv (presented session (.request 0x1000000000000000 [])) ∧
    ∃ t, step (presented session (.request 0x1000000000000000 [])) = .next t := by
  refine ⟨⟨.inr (.inl ⟨rfl, rfl, rfl⟩), ⟨rfl, fun h => (by cases h), fun _ => ⟨rfl, rfl, rfl⟩⟩, fun x hx => ?_⟩,
    serve_next id engEnd session⟩
  exact ⟨0x1000000000000000, [], List.mem_singleton.mp hx⟩

/-- ENTER after reset: StepKeepsWire, StepKeepsDelays, StepOnlyAdds. -/
theorem witness_StepKeepsWire : WireOk (presented State.reset (.primitive 0)) ∧ DelaysOk (presented State.reset (.primitive 0)) ∧
    ∃ t, step (presented State.reset (.primitive 0)) = .next t := ⟨rfl, rfl, serveAlone_next seqEnter State.reset⟩

theorem witness_FatalIsSticky : ({ State.reset with fatal := true } : State).fatal = true ∧
    step { State.reset with fatal := true } = .next { State.reset with fatal := true } := ⟨rfl, rfl⟩

end Sys2Proof.Tests
end

section
/-! PROOFS. The family `00_scope.md`: the register-load command (R9, R127), and that every host request is answered (R6, R32,
R33, R161, R167). -/

namespace Sys2Proof.Proofs

open Sys2Proof.Machine Sys2Proof.Safety Sys2Proof.Laws

/-! ### The register-load command -/

/-- A bit of a load command is the template's, or the value's bit that the shift brings there (R9). -/
theorem getLsbD_loadReg (sc : Scripts) (k : Fin 6) (v : Reg16) (i : Nat) (hi : i < 24) :
    (loadReg sc k v).getLsbD i =
      ((sc.tplLoadreg k).getLsbD i || (decide (sc.shLoadreg ≤ i) && v.getLsbD (i - sc.shLoadreg))) := by
  by_cases h : sc.shLoadreg ≤ i
  · simp [loadReg, hi, h, Nat.not_lt.mpr h]
  · simp [loadReg, hi, h, Nat.not_le.mp h]

/-- The template of a well-formed record is zero on the value's field (R8, D38). -/
theorem tplLoadreg_field_zero {sc : Scripts} (hwf : sc.Wf) (k : Fin 6) (i : Nat) (hi : i < 16) :
    (sc.tplLoadreg k).getLsbD (sc.shLoadreg + i) = false := by
  obtain ⟨-, hsh, htpl⟩ := hwf
  have hlt : sc.shLoadreg + i < 24 := by omega
  have hmask : ∀ j < 16, (0xFFFF : BitVec 24).getLsbD j = true := by decide
  have hbit := congrArg (BitVec.getLsbD · (sc.shLoadreg + i)) (htpl k)
  simp only [BitVec.getLsbD_and, BitVec.getLsbD_shiftLeft, Nat.add_sub_cancel_left, hmask i hi] at hbit
  simpa [hlt] using hbit

/-- Settles O41: the field's bits come from the value because the template is zero there, the others from the template
because the value has 16 bits. -/
theorem loadCommandHoldsValue : Obligations.LoadCommandHoldsValue := by
  intro sc k v hwf
  have hsh : sc.shLoadreg ≤ 8 := hwf.2.1
  refine ⟨fun i hi => ?_, fun i hi hout => ?_⟩
  · rw [getLsbD_loadReg sc k v _ (by omega), tplLoadreg_field_zero hwf k i hi]
    simp
  · rw [getLsbD_loadReg sc k v i hi]
    obtain hbelow | habove := hout
    · simp [Nat.not_le.mpr hbelow]
    · rw [BitVec.getLsbD_of_ge v (i - sc.shLoadreg) (by omega)]
      simp

/-! ### How a request ends -/

/-- From `s` to `t` a request was answered: one response, shown by `STATUS` and counted into `FATAL`, an error without data
(R32, R33, R161); the requests behind it still wait. -/
def Answered (s t : State) : Prop :=
  t.pending = s.pending ∧ ∃ r : Response, t.responses = r :: s.responses ∧ t.status = r.status ∧
    (r.info = none ↔ r.status = .ok) ∧ (r.status ≠ .ok → r.data = []) ∧
    t.fatal = (s.fatal || r.status == .preconditionViolation || r.status == .illegalRequest)

/-- What an answer builds on is as before: the queue, the responses and `FATAL`. -/
def SameHost (s u : State) : Prop := u.pending = s.pending ∧ u.responses = s.responses ∧ u.fatal = s.fatal

theorem sameHost_of_emits {s u : State} (h : Emits s u) : SameHost s u := by
  obtain ⟨-, hpend, hresp, -, hfatal, -, -⟩ := h
  exact ⟨hpend, hresp, hfatal⟩

theorem SameHost.trans {s t u : State} (h1 : SameHost s t) (h2 : SameHost t u) : SameHost s u := by
  obtain ⟨hp1, hr1, hf1⟩ := h1
  obtain ⟨hp2, hr2, hf2⟩ := h2
  exact ⟨hp2.trans hp1, hr2.trans hr1, hf2.trans hf1⟩

/-- No error has the status OK. -/
theorem status_ne_ok (e : Err) : e.status ≠ .ok := by
  cases e <;> simp [Err.status]

/-- The errors that set `FATAL` are those of the two statuses R33 names. -/
theorem setsFatal_eq_status (e : Err) :
    e.setsFatal = (e.status == .preconditionViolation || e.status == .illegalRequest) := by
  cases e <;> rfl

theorem answered_returned {s u : State} (h : SameHost s u) (v : List Word24) : Answered s (u.returned v) := by
  obtain ⟨hpend, hresp, hfatal⟩ := h
  exact ⟨hpend, ⟨.ok, v, none⟩, by simp [hresp], rfl, by simp, by simp, hfatal.trans (by cases s.fatal <;> rfl)⟩

theorem answered_raised {s u : State} (h : SameHost s u) (e : Err) : Answered s (u.raised e) := by
  obtain ⟨hpend, hresp, hfatal⟩ := h
  refine ⟨hpend, ⟨e.status, [], some e⟩, by simp [hresp], rfl, by simp [status_ne_ok e], fun _ => rfl, ?_⟩
  rw [raised_fatal, hfatal, setsFatal_eq_status, Bool.or_assoc]

/-- A request served over a body that only emits is answered, whether the body returns or raises. -/
theorem serve_answered {free : State → State} {body : Op (List Word24)} {s t : State}
    (hfree : ∀ u, SameHost u (free u)) (hbody : Keeps body) (h : serve free body s = .next t) : Answered s t := by
  have hend : SameHost s (endState (body.run s)) := sameHost_of_emits (hbody s)
  unfold serve at h
  cases hrun : body.run s with
  | ok v u =>
    rw [hrun] at h hend
    cases h
    exact answered_returned (hend.trans (hfree u)) v
  | error e u =>
    rw [hrun] at h hend
    cases h
    refine answered_raised ?_ e
    split
    · exact hend
    · exact hend.trans (hfree u)

/-! ### The host's requests -/

/-- The two ways a host request is run: served over a body that only emits, or answered at once as a reserved code (R71). -/
theorem exec_request_cases (i : Instr) (hi : isRequest i = true) :
    (∃ free body, (∀ u, SameHost u (free u)) ∧ Keeps body ∧ ∀ s, exec i s = serve free body s) ∨
      ∀ s, exec i s = .next (s.raised (.illegal .opcode)) := by
  have hid : ∀ u : State, SameHost u (id u) := fun _ => ⟨rfl, rfl, rfl⟩
  have hseq : ∀ u : State, SameHost u u.freeSeq := fun _ => ⟨rfl, rfl, rfl⟩
  have hread : ∀ u : State, SameHost u u.freeRead := fun _ => ⟨rfl, rfl, rfl⟩
  have hwrite : ∀ u : State, SameHost u u.freeWrite := fun _ => ⟨rfl, rfl, rfl⟩
  cases i with
  | beginSession => exact .inl ⟨_, _, hseq, keeps_engBegin Config.scripts, fun _ => rfl⟩
  | endSession => exact .inl ⟨_, _, hid, keeps_engEnd, fun _ => rfl⟩
  | readDevid => exact .inl ⟨_, _, hread, keeps_engReadDevid Config.scripts, fun _ => rfl⟩
  | readMem a n => exact .inl ⟨_, _, hread, keeps_engReadMem Config.scripts a n.toNat, fun _ => rfl⟩
  | writeMem a d => exact .inl ⟨_, _, hwrite, keeps_engWriteMem Config.scripts a d, fun _ => rfl⟩
  | readCfg => exact .inl ⟨_, _, hread, keeps_engReadCfg Config.scripts, fun _ => rfl⟩
  | writeCfg d => exact .inl ⟨_, _, hwrite, keeps_engWriteCfg Config.scripts d, fun _ => rfl⟩
  | erase => exact .inl ⟨_, _, hseq, keeps_engErase Config.scripts, fun _ => rfl⟩
  | startDev => exact .inl ⟨_, _, hid, keeps_engStartDev, fun _ => rfl⟩
  | stopDev => exact .inl ⟨_, _, hid, keeps_engStopDev, fun _ => rfl⟩
  | reservedOpAB rest => exact .inr fun _ => rfl
  | reservedOpCF rest => exact .inr fun _ => rfl
  | enter | leave | execCmd | regout | pack | unpack | keyFrame | sixFrame | sixFirstFrame | regoutFrame => cases hi

/-- A host request always ends in a next state. -/
theorem exec_request_next (i : Instr) (hi : isRequest i = true) (s : State) : ∃ t, exec i s = .next t := by
  obtain ⟨free, body, -, -, hserve⟩ | hraised := exec_request_cases i hi
  · rw [hserve]
    exact serve_next free body s
  · exact ⟨_, hraised s⟩

/-- The next state of a host request is one in which it was answered. -/
theorem exec_request_answered {i : Instr} (hi : isRequest i = true) {s t : State} (h : exec i s = .next t) :
    Answered s t := by
  obtain ⟨free, body, hfree, hbody, hserve⟩ | hraised := exec_request_cases i hi
  · exact serve_answered hfree hbody (hserve s ▸ h)
  · rw [hraised] at h
    cases h
    exact answered_raised ⟨rfl, rfl, rfl⟩ _

/-- Settles O43: every host request is answered, by `exec_request_answered`. -/
theorem responseStatusFatal : Obligations.ResponseStatusFatal := by
  intro s t i hi h
  obtain ⟨-, hanswer⟩ := exec_request_answered hi h
  exact hanswer

/-! ### The host's headers -/

/-- What a header that the host can present decodes to: a host request, or a nonzero unused field (R62). -/
def RequestOrField (x : Except Reject Instr) : Prop := (∃ i, isRequest i = true ∧ x = .ok i) ∨ x = .error .irField

/-- The shape of every line of the request table: fields first, then the data words, whose number is as it must be. -/
theorem requestOrField_ite (fields : Bool) {count : Prop} [Decidable count] (hcount : count) {i : Instr}
    (hi : isRequest i = true) :
    RequestOrField (if fields then if count then .ok i else .error .dataCount else .error .irField) := by
  cases fields with
  | true => exact .inl ⟨i, hi, by simp [hcount]⟩
  | false => exact .inr rfl

/-- No data words follow a header of an operation other than WRITE_MEM and WRITE_CFG (R60). -/
theorem isEmpty_of_conforms {hdr : BitVec 64} {data : List Word24} (h : Conforms hdr data)
    (h4 : (hdrOp hdr).toNat ≠ 4) (h6 : (hdrOp hdr).toNat ≠ 6) : data.isEmpty = true := by
  have hop : ¬ (hdrOp hdr = 4 ∨ hdrOp hdr = 6) := by
    rintro (hop | hop) <;> simp [hop] at h4 h6
  rw [Conforms, dataWords, if_neg hop] at h
  simpa using h

/-- `N` data words follow a header of WRITE_MEM or WRITE_CFG (R60). -/
theorem length_of_conforms {hdr : BitVec 64} {data : List Word24} (h : Conforms hdr data)
    (hop : (hdrOp hdr).toNat = 4 ∨ (hdrOp hdr).toNat = 6) : data.length = (hdrN hdr).toNat := by
  have hwrites : hdrOp hdr = 4 ∨ hdrOp hdr = 6 := hop.imp BitVec.eq_of_toNat_eq BitVec.eq_of_toNat_eq
  rwa [Conforms, dataWords, if_pos hwrites] at h

/-- A header with its own number of data words is a host request or has a nonzero unused field (R62, R71). -/
theorem decodeRequest_of_conforms {hdr : BitVec 64} {data : List Word24} (h : Conforms hdr data) :
    RequestOrField (decodeRequest hdr data) := by
  unfold decodeRequest
  split
  -- The lines of the table count from OP 0: first the two writes, then the reserved codes, then the operations without data.
  case h_5 hop => exact requestOrField_ite _ (length_of_conforms h (.inl hop)) rfl
  case h_7 hop => exact requestOrField_ite _ (length_of_conforms h (.inr hop)) rfl
  case h_11 => exact .inl ⟨_, rfl, rfl⟩
  case h_12 => exact .inl ⟨_, rfl, rfl⟩
  case h_13 => exact .inl ⟨_, rfl, rfl⟩
  all_goals exact requestOrField_ite _ (isEmpty_of_conforms h (by omega) (by omega)) rfl

/-- Settles O46: the header decodes to a host request, which is answered, or its fields are refused with IR_FIELD, which is
an answer too (R62, R164). -/
theorem everyRequestIsAnswered : Obligations.EveryRequestIsAnswered := by
  intro s hdr data rest hpend hconf
  suffices hstep : ∃ t, step s = .next t ∧ Answered { s with pending := rest } t by
    obtain ⟨t, hnext, htaken, r, hresp, hstatus, -⟩ := hstep
    exact ⟨t, r, hnext, htaken, hresp, hstatus⟩
  rw [step, hpend]
  obtain ⟨i, hi, hdec⟩ | hdec := decodeRequest_of_conforms hconf
  · obtain ⟨t, hnext⟩ := exec_request_next i hi { s with pending := rest }
    simp only [decode, hdec]
    exact ⟨t, hnext, exec_request_answered hi hnext⟩
  · simp only [decode, hdec, rejectWord]
    exact ⟨_, rfl, answered_raised ⟨rfl, rfl, rfl⟩ _⟩

end Sys2Proof.Proofs
end

section
/-! PROOFS. The family `10_state.md`: which instruction a step runs (R28, R50, R181), the state after reset (R36, R180), and
what every step keeps: the control states and their lines (R27, R87, R110), `WIRE` (R12, R22) and `FATAL` (R33). -/

namespace Sys2Proof.Proofs

open Sys2Proof.Machine Sys2Proof.Safety Sys2Proof.Laws

/-! ### The three ways of a step -/

theorem step_of_idle {s : State} (hpend : s.pending = []) : step s = .next s := by
  rw [step, hpend]

theorem step_of_decoded {s : State} {x : PortWord} {rest : List PortWord} {i : Instr} (hpend : s.pending = x :: rest)
    (hdec : decode x = .ok i) : step s = exec i { s with pending := rest } := by
  simp only [step, hpend, hdec]

theorem step_of_rejected {s : State} {x : PortWord} {rest : List PortWord} {r : Reject} (hpend : s.pending = x :: rest)
    (hdec : decode x = .error r) : step s = rejectWord r { s with pending := rest } := by
  simp only [step, hpend, hdec]

/-- Of the words that are no instruction, only a header with a nonzero unused field is answered (R62, R164). -/
theorem rejectWord_eq_next {r : Reject} {s t : State} (h : rejectWord r s = .next t) :
    t = s.raised (.illegal .field) := by
  cases r with
  | irField => cases h; rfl
  | dataCount | reservedPrimitive | unknownFrame => cases h

/-- What a step that answers did: nothing on an empty queue, or it took the oldest word and ran its instruction, or refused
its fields (R50, R62, R172). -/
theorem step_cases {s t : State} (h : step s = .next t) :
    (s.pending = [] ∧ t = s) ∨
    ∃ x rest, s.pending = x :: rest ∧
      ((∃ i, decode x = .ok i ∧ exec i { s with pending := rest } = .next t) ∨
        t = ({ s with pending := rest } : State).raised (.illegal .field)) := by
  cases hpend : s.pending with
  | nil =>
    rw [step_of_idle hpend] at h
    cases h
    exact .inl ⟨rfl, rfl⟩
  | cons x rest =>
    refine .inr ⟨x, rest, rfl, ?_⟩
    cases hdec : decode x with
    | ok i => exact .inl ⟨i, rfl, step_of_decoded hpend hdec ▸ h⟩
    | error r => exact .inr (rejectWord_eq_next (step_of_rejected hpend hdec ▸ h))

/-- Settles O7. -/
theorem stepRunsDecoded : Obligations.StepRunsDecoded :=
  fun _ _ _ _ hpend hdec => step_of_decoded hpend hdec

/-- A table word that decodes stands on a port, as a word that decodes to the same instruction. -/
theorem decodeTableWord_eq_some {nbits w : Nat} {i : Instr} (h : decodeTableWord nbits w = some i) :
    ∃ x, portWordOfTable nbits w = some x ∧ decode x = .ok i := by
  rw [decodeTableWord] at h
  cases hport : portWordOfTable nbits w with
  | none => simp [hport] at h
  | some x =>
    refine ⟨x, rfl, ?_⟩
    cases hdec : decode x with
    | error r => simp [hport, hdec, Except.toOption] at h
    | ok j => simpa [hport, hdec, Except.toOption] using h

/-- Settles O8: the presented word is the oldest, and taking it leaves the state as it was. -/
theorem tableWordRunsNext : Obligations.TableWordRunsNext := by
  intro s nbits w i h
  obtain ⟨x, hport, hdec⟩ := decodeTableWord_eq_some h
  have hpresent : s.withFetchWord nbits w = { s with pending := x :: s.pending } := by
    rw [State.withFetchWord, hport]
  rw [hpresent, step_of_decoded rfl hdec]

/-! ### How an instruction ends -/

/-- The working registers of a state. -/
def workRegs (s : State) : WorkRegs :=
  ⟨⟨⟨s.cmdsr, s.first, s.rv, s.bitcnt, s.item⟩, s.w, s.r, s.grp⟩, s.polln, s.cfgi⟩

/-- From `s` to `t` only working registers were written: their values between requests are unspecified (R29; log 4). -/
def WorkOnly (s t : State) : Prop := ∃ q n, t = withWork { s with frees := n } q

theorem WorkOnly.refl (s : State) : WorkOnly s s := ⟨workRegs s, s.frees, rfl⟩
theorem workOnly_freeSeq (s : State) : WorkOnly s s.freeSeq := ⟨workRegs s.freeSeq, s.frees + 1, rfl⟩
theorem workOnly_freeRead (s : State) : WorkOnly s s.freeRead := ⟨workRegs s.freeRead, s.frees + 1, rfl⟩
theorem workOnly_freeWrite (s : State) : WorkOnly s s.freeWrite := ⟨workRegs s.freeWrite, s.frees + 1, rfl⟩

/-- `t` is `u` with at most one response made (R161). -/
def Ends (u t : State) : Prop := t = u ∨ (∃ v, t = u.returned v) ∨ ∃ e, t = u.raised e

/-- A request ends in a response on its body's last state, but for working registers. -/
theorem serve_ends {free : State → State} {body : Op (List Word24)} {s t : State} (hfree : ∀ u, WorkOnly u (free u))
    (h : serve free body s = .next t) : ∃ u, WorkOnly (endState (body.run s)) u ∧ Ends u t := by
  unfold serve at h
  cases hrun : body.run s with
  | ok v u =>
    rw [hrun] at h
    cases h
    exact ⟨free u, hfree u, .inr (.inl ⟨v, rfl⟩)⟩
  | error e u =>
    rw [hrun] at h
    cases h
    refine ⟨_, ?_, .inr (.inr ⟨e, rfl⟩)⟩
    split
    · exact WorkOnly.refl u
    · exact hfree u

/-- A primitive or frame run alone ends in its body's last state, with a response where it raises (log 9). -/
theorem serveAlone_ends {body : Op Unit} {s t : State} (h : serveAlone body s = .next t) :
    Ends (endState (body.run s)) t := by
  unfold serveAlone at h
  cases hrun : body.run s with
  | ok v u =>
    rw [hrun] at h
    cases h
    exact .inl rfl
  | error e u =>
    rw [hrun] at h
    cases h
    exact .inr (.inr ⟨e, rfl⟩)

/-! ### Control states and their lines, over the bodies of requests -/

/-- One of the three control states, with the lines it implies (R27, R87, R110). -/
def ControlLines (s : State) : Prop := ControlOk s ∧ LinesOk s

theorem controlLines_of_idle {s : State} (hidle : Idle s) (hclock : s.sig.clock = false) (hreset : s.sig.reset = false)
    (hpower : s.sig.power = false) : ControlLines s := by
  obtain ⟨-, -, hdrv⟩ := id hidle
  exact ⟨.inl hidle, hclock, fun _ => ⟨hreset, hpower⟩, fun hopen => by simp [hdrv] at hopen⟩

theorem controlLines_of_open {s : State} (hctl : ControlOk s) (hopen : s.drv = .opened) (hclock : s.sig.clock = false)
    (hreset : s.sig.reset = true) (hpower : s.sig.power = true) (hwire : s.wire = some s.sig) : ControlLines s :=
  ⟨hctl, hclock, fun hrel => by simp [hopen] at hrel, fun _ => ⟨hreset, hpower, hwire⟩⟩

theorem controlLines_workOnly {s t : State} (hs : ControlLines s) (h : WorkOnly s t) : ControlLines t := by
  obtain ⟨q, n, rfl⟩ := h
  exact hs

theorem controlLines_ends {s t : State} (hs : ControlLines s) (h : Ends s t) : ControlLines t := by
  obtain rfl | ⟨v, rfl⟩ | ⟨e, rfl⟩ := h <;> exact hs

/-- An operation keeps the control state and its lines, whether it yields or raises. -/
def KeepsControl {α : Type} (x : Op α) : Prop := ∀ s, ControlLines s → ControlLines (endState (x.run s))

/-- Acts on an open driver leave the clock low, reset and power high, and commit what they leave pending (R87). -/
theorem controlLines_acts {s : State} (hs : ControlLines s) (hopen : s.drv = .opened) (as : List Act) (q : WorkRegs) :
    ControlLines (withWork (did s as) q) := by
  obtain ⟨hctl, hclock, -, hlines⟩ := hs
  obtain ⟨hreset, hpower, hwire⟩ := hlines hopen
  obtain ⟨hclock', hreset', hpower'⟩ := actsAfter_lines s.sig as hclock
  refine controlLines_of_open hctl hopen hclock' (hreset'.trans hreset) (hpower'.trans hpower) ?_
  exact (congrArg (wireAfter · _) hwire).trans (wireAfter_acts s.sig as)

/-- A device operation does acts in an open driver's states, and raises PV_NO_SESSION in Idle (R125, R166). -/
theorem keepsControl_deviceOp {f : Unit → Op (List Word24)} (hacts : DoesActs (requireSession >>= f)) :
    KeepsControl (requireSession >>= f) := by
  intro s hs
  cases hdrv : s.drv with
  | opened =>
    obtain ⟨as, q, -, hend⟩ := hacts s hdrv
    rw [hend]
    exact controlLines_acts hs hdrv as q
  | released =>
    obtain ⟨⟨hmode, -, -⟩ | ⟨-, -, hopen⟩ | ⟨-, -, hopen⟩, -⟩ := id hs
    · rw [requireSession, bind_error (violateIf_true (by simp [hmode]))]
      exact hs
    all_goals exact nomatch hdrv.symm.trans hopen

/-- BEGIN leads from Idle to Session and raises in the other two (R111). -/
theorem keepsControl_engBegin (sc : Scripts) : KeepsControl (engBegin sc) := by
  intro s hs
  obtain ⟨⟨hmode, hrun, hdrv⟩ | ⟨hmode, -, -⟩ | ⟨hmode, hrun, -⟩, -⟩ := id hs
  · rw [engBegin, bind_ok (violateIf_false (by simp [hmode])), bind_ok (violateIf_false (by simp [hrun])),
      bind_ok (seqEnter_ok s hdrv), bind_ok (seqExec_ok _ _ _ rfl), update_bind, pure_run]
    exact controlLines_of_open (.inr (.inl ⟨rfl, hrun, rfl⟩)) rfl rfl rfl rfl
      (wireAfter_six (some running) running true sc.cmdNop)
  · rw [engBegin, bind_error (violateIf_true (by simp [hmode]))]
    exact hs
  · rw [engBegin, bind_ok (violateIf_false (by simp [hmode])), bind_error (violateIf_true (by simp [hrun]))]
    exact hs

/-- END leads from Session to Idle and raises in the other two (R112). -/
theorem keepsControl_engEnd : KeepsControl engEnd := by
  intro s hs
  obtain ⟨⟨hmode, -, -⟩ | ⟨hmode, hrun, hdrv⟩ | ⟨hmode, -, -⟩, hclock, -⟩ := id hs
  · rw [engEnd, bind_error (violateIf_true (by simp [hmode]))]
    exact hs
  · rw [engEnd, bind_ok (violateIf_false (by simp [hmode])), bind_ok (seqLeave_ok s hdrv), update_bind, pure_run]
    exact controlLines_of_idle ⟨rfl, hrun, rfl⟩ hclock rfl rfl
  · rw [engEnd, bind_error (violateIf_true (by simp [hmode]))]
    exact hs

/-- START_DEV leads from Idle to Running and raises in the other two (R113). -/
theorem keepsControl_engStartDev : KeepsControl engStartDev := by
  intro s hs
  obtain ⟨⟨hmode, hrun, -⟩ | ⟨hmode, -, -⟩ | ⟨hmode, hrun, -⟩, -⟩ := id hs
  · rw [engStartDev, bind_ok (violateIf_false (by simp [hmode])), bind_ok (violateIf_false (by simp [hrun])),
      drvOpen_bind, setLine_bind, setLine_bind, commit_bind, update_bind, pure_run]
    exact controlLines_of_open (.inr (.inr ⟨hmode, rfl, rfl⟩)) rfl rfl rfl rfl rfl
  · rw [engStartDev, bind_error (violateIf_true (by simp [hmode]))]
    exact hs
  · rw [engStartDev, bind_ok (violateIf_false (by simp [hmode])), bind_error (violateIf_true (by simp [hrun]))]
    exact hs

/-- STOP_DEV leads from Running to Idle and raises in the other two (R114). -/
theorem keepsControl_engStopDev : KeepsControl engStopDev := by
  intro s hs
  obtain ⟨⟨-, hrun, -⟩ | ⟨-, hrun, -⟩ | ⟨hmode, hrun, -⟩, hclock, -⟩ := id hs
  · rw [engStopDev, bind_error (violateIf_true (by simp [hrun]))]
    exact hs
  · rw [engStopDev, bind_error (violateIf_true (by simp [hrun]))]
    exact hs
  · rw [engStopDev, bind_ok (violateIf_false (by simp [hrun])), setLine_bind, setLine_bind, commit_bind, drvClose_bind,
      update_bind, pure_run]
    exact controlLines_of_idle ⟨hmode, rfl, rfl⟩ hclock rfl rfl

/-! ### The instructions -/

/-- How a host request is run: served over a body that emits and keeps the control states, leaving working registers
unspecified, or answered at once as a reserved code (R71). -/
theorem exec_request_served (i : Instr) (hi : isRequest i = true) :
    (∃ free body, (∀ u, WorkOnly u (free u)) ∧ Keeps body ∧ KeepsControl body ∧ ∀ s, exec i s = serve free body s) ∨
      ∀ s, exec i s = .next (s.raised (.illegal .opcode)) := by
  cases i with
  | beginSession =>
    exact .inl ⟨_, _, workOnly_freeSeq, keeps_engBegin Config.scripts, keepsControl_engBegin Config.scripts, fun _ => rfl⟩
  | endSession => exact .inl ⟨_, _, WorkOnly.refl, keeps_engEnd, keepsControl_engEnd, fun _ => rfl⟩
  | readDevid =>
    exact .inl ⟨_, _, workOnly_freeRead, keeps_engReadDevid Config.scripts,
      keepsControl_deviceOp (doesActs_engReadDevid Config.scripts), fun _ => rfl⟩
  | readMem a n =>
    exact .inl ⟨_, _, workOnly_freeRead, keeps_engReadMem Config.scripts a n.toNat,
      keepsControl_deviceOp (doesActs_engReadMem Config.scripts a n.toNat), fun _ => rfl⟩
  | writeMem a d =>
    exact .inl ⟨_, _, workOnly_freeWrite, keeps_engWriteMem Config.scripts a d,
      keepsControl_deviceOp (doesActs_engWriteMem Config.scripts a d), fun _ => rfl⟩
  | readCfg =>
    exact .inl ⟨_, _, workOnly_freeRead, keeps_engReadCfg Config.scripts,
      keepsControl_deviceOp (doesActs_engReadCfg Config.scripts), fun _ => rfl⟩
  | writeCfg d =>
    exact .inl ⟨_, _, workOnly_freeWrite, keeps_engWriteCfg Config.scripts d,
      keepsControl_deviceOp (doesActs_engWriteCfg Config.scripts d), fun _ => rfl⟩
  | erase =>
    exact .inl ⟨_, _, workOnly_freeSeq, keeps_engErase Config.scripts,
      keepsControl_deviceOp (doesActs_engErase Config.scripts), fun _ => rfl⟩
  | startDev => exact .inl ⟨_, _, WorkOnly.refl, keeps_engStartDev, keepsControl_engStartDev, fun _ => rfl⟩
  | stopDev => exact .inl ⟨_, _, WorkOnly.refl, keeps_engStopDev, keepsControl_engStopDev, fun _ => rfl⟩
  | reservedOpAB | reservedOpCF => exact .inr fun _ => rfl
  | enter | leave | execCmd | regout | pack | unpack | keyFrame | sixFrame | sixFirstFrame | regoutFrame => cases hi

/-- How a word of an internal port is run: alone, over a body that emits, or by CODEC, which only shows its output (R104). -/
theorem exec_internal_cases (i : Instr) (hi : isRequest i = false) :
    (∃ body, Keeps body ∧ ∀ s, exec i s = serveAlone body s) ∨
      ∃ o, ∀ s, exec i s = .next { s with codecOut := some o } := by
  cases i with
  | enter => exact .inl ⟨_, keeps_seqEnter, fun _ => rfl⟩
  | leave => exact .inl ⟨_, keeps_seqLeave, fun _ => rfl⟩
  | execCmd first c => exact .inl ⟨_, keeps_seqExec c first, fun _ => rfl⟩
  | regout => exact .inl ⟨_, keeps_bind keeps_seqRegout fun _ => keeps_pure (), fun _ => rfl⟩
  | pack | unpack => exact .inr ⟨_, fun _ => rfl⟩
  | keyFrame => exact .inl ⟨_, keeps_keyFrame, fun _ => rfl⟩
  | sixFrame c => exact .inl ⟨_, keeps_seqExec c false, fun _ => rfl⟩
  | sixFirstFrame c => exact .inl ⟨_, keeps_seqExec c true, fun _ => rfl⟩
  | regoutFrame r => exact .inl ⟨_, keeps_regoutFrame r, fun _ => rfl⟩
  | beginSession | endSession | readDevid | readMem | writeMem | readCfg | writeCfg | erase | startDev | stopDev
  | reservedOpAB | reservedOpCF => cases hi

/-! ### What every step advances -/

/-- From `s` to `t` the line trace grew by events that `WIRE` and the delays follow (R22, R171), at most one response was
made, `FATAL` was not cleared (R33), and the queue is as before. -/
def Advances (s t : State) : Prop :=
  (∃ evs : List Event, t.trace = evs.reverse ++ s.trace ∧ t.wire = wireAfter s.wire evs ∧ evs.all delayOk = true) ∧
    (∃ rs : List Response, t.responses = rs ++ s.responses ∧ rs.length ≤ 1) ∧
    (s.fatal = true → t.fatal = true) ∧ t.pending = s.pending

/-- Events, then working registers, then at most one response. -/
theorem advances_of_emits {s u v t : State} (hemits : Emits s u) (hwork : WorkOnly u v) (hend : Ends v t) :
    Advances s t := by
  obtain ⟨hevents, hpend, hresp, -, hfatal, -, -⟩ := hemits
  obtain ⟨q, n, rfl⟩ := hwork
  obtain rfl | ⟨d, rfl⟩ | ⟨e, rfl⟩ := hend
  · exact ⟨hevents, ⟨[], hresp, Nat.zero_le 1⟩, hfatal.trans, hpend⟩
  · exact ⟨hevents, ⟨[⟨.ok, d, none⟩], congrArg (_ :: ·) hresp, Nat.le_refl 1⟩, hfatal.trans, hpend⟩
  · refine ⟨hevents, ⟨[⟨e.status, [], some e⟩], congrArg (_ :: ·) hresp, Nat.le_refl 1⟩, fun hset => ?_, hpend⟩
    exact congrArg (· || e.setsFatal) (hfatal.trans hset)

theorem advances_raised (s : State) (e : Err) : Advances s (s.raised e) :=
  advances_of_emits (Emits.refl s) (WorkOnly.refl s) (.inr (.inr ⟨e, rfl⟩))

theorem exec_advances {i : Instr} {s t : State} (h : exec i s = .next t) : Advances s t := by
  cases hi : isRequest i with
  | true =>
    obtain ⟨free, body, hfree, hkeeps, -, hserve⟩ | hraised := exec_request_served i hi
    · obtain ⟨u, hwork, hend⟩ := serve_ends hfree (hserve s ▸ h)
      exact advances_of_emits (hkeeps s) hwork hend
    · cases (hraised s).symm.trans h
      exact advances_raised s _
  | false =>
    obtain ⟨body, hkeeps, hserve⟩ | ⟨o, hcodec⟩ := exec_internal_cases i hi
    · exact advances_of_emits (hkeeps s) (WorkOnly.refl _) (serveAlone_ends (hserve s ▸ h))
    · cases (hcodec s).symm.trans h
      exact ⟨⟨[], rfl, rfl, rfl⟩, ⟨[], rfl, Nat.zero_le 1⟩, id, rfl⟩

/-- A step loses the oldest word of the queue and advances. -/
theorem step_advances {s t : State} (h : step s = .next t) :
    Advances { s with pending := s.pending.tail } t := by
  obtain ⟨hpend, rfl⟩ | ⟨x, rest, hpend, ⟨i, -, hexec⟩ | rfl⟩ := step_cases h
  · exact ⟨⟨[], rfl, rfl, rfl⟩, ⟨[], rfl, Nat.zero_le 1⟩, id, by simp [hpend]⟩
  · rw [hpend]
    exact exec_advances hexec
  · rw [hpend]
    exact advances_raised _ _

/-- Settles O54, by `step_advances`. -/
theorem fatalIsSticky : Obligations.FatalIsSticky := by
  intro s t hset h
  obtain ⟨-, -, hfatal, -⟩ := step_advances h
  exact hfatal hset

/-- Settles O49: `WIRE` follows the events a step adds to the line trace. -/
theorem stepKeepsWire : Obligations.StepKeepsWire := by
  intro s t hs h
  obtain ⟨⟨evs, htrace, hwire, -⟩, -⟩ := step_advances h
  calc t.wire = wireAfter s.wire evs := hwire
    _ = wireAfter (wireAfter none s.trace.reverse) evs := congrArg (wireAfter · evs) hs
    _ = wireAfter none (s.trace.reverse ++ evs) := (wireAfter_append _ _ _).symm
    _ = wireAfter none t.trace.reverse := by rw [htrace, List.reverse_append, List.reverse_reverse]

/-! ### The control invariant -/

/-- A host request keeps the control state and its lines. -/
theorem exec_request_controlLines {i : Instr} (hi : isRequest i = true) {s t : State} (hs : ControlLines s)
    (h : exec i s = .next t) : ControlLines t := by
  obtain ⟨free, body, hfree, -, hkeeps, hserve⟩ | hraised := exec_request_served i hi
  · obtain ⟨u, hwork, hend⟩ := serve_ends hfree (hserve s ▸ h)
    exact controlLines_ends (controlLines_workOnly (hkeeps s hs) hwork) hend
  · cases (hraised s).symm.trans h
    exact hs

/-- The shape of every line of the request table: what passes both checks is the line's instruction. -/
theorem eq_of_checks_ok {fields count : Prop} [Decidable fields] [Decidable count] {r q : Reject} {i j : Instr}
    (h : (if fields then if count then .ok i else .error r else .error q : Except Reject Instr) = .ok j) : i = j := by
  split at h
  · split at h <;> cases h
    rfl
  · cases h

/-- The host's port carries requests only (R61, D33). -/
theorem isRequest_of_decodeRequest {hdr : BitVec 64} {data : List Word24} {i : Instr}
    (h : decodeRequest hdr data = .ok i) : isRequest i = true := by
  unfold decodeRequest at h
  split at h
  -- Counted from OP 0; the last three lines are the reserved codes, which check nothing (R71).
  case h_11 | h_12 | h_13 => cases h; rfl
  all_goals
    cases eq_of_checks_ok h
    rfl

/-- Where only host requests stand before the block, a step keeps the control state and its lines. -/
theorem step_controlLines {s t : State} (hs : ControlLines s) (hhost : HostOnly s) (h : step s = .next t) :
    ControlLines t := by
  obtain ⟨-, rfl⟩ | ⟨x, rest, hpend, ⟨i, hdec, hexec⟩ | rfl⟩ := step_cases h
  · exact hs
  · obtain ⟨hdr, data, rfl⟩ := hhost x (by simp [hpend])
    exact exec_request_controlLines (s := { s with pending := rest }) (isRequest_of_decodeRequest hdec) hs hexec
  · exact hs

/-- Settles O47: `step_controlLines` for the control state and the lines, and the queue only loses its oldest word. -/
theorem stepKeepsControl : Obligations.StepKeepsControl := by
  intro s t ⟨hctl, hlines, hhost⟩ h
  obtain ⟨hctl', hlines'⟩ := step_controlLines ⟨hctl, hlines⟩ hhost h
  have hpend : t.pending = s.pending.tail := by
    obtain ⟨-, -, -, hpend⟩ := step_advances h
    exact hpend
  exact ⟨hctl', hlines', fun x hx => hhost x (List.mem_of_mem_tail (hpend ▸ hx))⟩

/-! ### The state after reset -/

/-- Settles O11. -/
theorem resetIsIdle : Obligations.ResetIsIdle := ⟨rfl, rfl, rfl, rfl, rfl, rfl, rfl, rfl⟩

/-- Settles O48: the state after reset is Idle with its lines low, and nothing is pending. -/
theorem resetControl : Obligations.ResetControl := by
  obtain ⟨hctl, hlines⟩ : ControlLines State.reset := controlLines_of_idle ⟨rfl, rfl, rfl⟩ rfl rfl rfl
  exact ⟨hctl, hlines, fun _ hx => nomatch hx⟩

/-- Settles O50: no level is committed and the line trace is empty. -/
theorem resetWire : Obligations.ResetWire := rfl

end Sys2Proof.Proofs
end

section
/-! PROOFS. The family `20_memory.md`: the address split (R42, R70), what the device's answers become (R43, R86, R131), the
operand shapes (R46), that a read repeats its line events (R49), and that a step only adds (R50). -/

namespace Sys2Proof.Proofs

open Sys2Proof.Machine Sys2Proof.Safety Sys2Proof.Laws

/-! ### The address split -/

theorem addrHi_toNat (a : Addr24) : (addrHi a).toNat = a.toNat / 65536 := by
  simp only [addrHi, BitVec.extractLsb'_toNat, Nat.shiftRight_eq_div_pow]
  omega

theorem addrLo_toNat (a : Addr24) : (addrLo a).toNat = a.toNat % 65536 := by
  simp [addrLo]

/-- Settles O55: the two halves are the model's `addrHi` and `addrLo`. -/
theorem addressSplit : Obligations.AddressSplit :=
  fun _ a => ⟨addrHi a, addrLo a, addrHi_toNat a, addrLo_toNat a, rfl, rfl⟩

/-! ### What a step adds -/

/-- Settles O53, by `step_advances`. -/
theorem stepOnlyAdds : Obligations.StepOnlyAdds := by
  intro s t h
  obtain ⟨⟨evs, htrace, -, -⟩, hresp, -, hpend⟩ := step_advances h
  exact ⟨⟨evs.reverse, htrace⟩, hresp, hpend⟩

/-! ### The operand shapes -/

/-- A PreconditionViolation before any event ends the request with the state as it was (R161, R162). -/
theorem serve_violated (free : State → State) {body : Op (List Word24)} {c : PvCause} {s : State}
    (h : body.run s = .error (.violation c) s) : serve free body s = .next (s.raised (.violation c)) := by
  rw [serve, h]
  rfl

/-- A request that yields a value ends in a normal response (R161). -/
theorem serve_returned (free : State → State) {body : Op (List Word24)} {v : List Word24} {s t : State}
    (h : body.run s = .ok v t) : serve free body s = .next ((free t).returned v) := by
  rw [serve, h]

theorem readCountOk_iff (n : Nat) : readCountOk n = true ↔ 0 < n ∧ n % 4 = 0 ∧ n ≤ 64 := by
  simp [readCountOk, Nat.pos_iff_ne_zero, and_assoc]

theorem requireSession_ok {s : State} (h : s.mode = .sessionOpen) : requireSession.run s = .ok () s :=
  violateIf_false (by simp [h])

/-- A device operation whose operands have another shape raises PV_COUNT in a session, before any event (R46, R166). -/
theorem countCheck_error {s : State} (hmode : s.mode = .sessionOpen) {bad : State → Bool} (hbad : bad s = true)
    (f : Unit → Op (List Word24)) :
    (requireSession >>= fun _ => violateIf bad .count >>= f).run s = .error (.violation .count) s := by
  rw [bind_ok (requireSession_ok hmode), bind_error (violateIf_true hbad)]

/-- Settles O28: each request's count check raises, by `countCheck_error`. -/
theorem countsAreChecked : Obligations.CountsAreChecked := by
  intro s a hmode
  refine ⟨fun n hn => ?_, fun d hd => ?_, fun d hd => ?_⟩
  · have hbad : readCountOk n.toNat = false := by
      rw [Bool.eq_false_iff, Ne, readCountOk_iff]
      omega
    exact serve_violated _ (countCheck_error hmode (by simp [hbad]) _)
  · exact serve_violated _ (countCheck_error hmode (by simp [hd]) _)
  · exact serve_violated _ (countCheck_error hmode (by simp [hd]) _)

/-! ### The device's answers -/

/-- Where the device's answers are the bits of some values, those are the values read, in order (R43, R86). -/
theorem heard_of_answers {vs : List Reg16} {s : State} {rest : List Bool} (h : s.sense = vs.flatMap lsbFirst ++ rest)
    (i : Nat) {v : Reg16} (hv : vs[i]? = some v) : heard s i = v := by
  induction vs generalizing s i with
  | nil => cases hv
  | cons v' vs ih =>
    rw [List.flatMap_cons, List.append_assoc] at h
    cases i with
    | zero =>
      cases hv
      exact heard_answer s v _ h
    | succ i =>
      have hnext : (listened s (16 * 1)).sense = vs.flatMap lsbFirst ++ rest := by
        simp [listened, h]
      calc heard s (i + 1) = heard (listened s (16 * 1)) i := by rw [heard_listened, Nat.add_comm]
        _ = v := ih hnext i hv

/-- REGOUT run alone on an open driver: the frame, and `RV` as the device drove it (R86). -/
theorem exec_regout_opened {s : State} (hopen : s.drv = .opened) :
    exec .regout s =
      .next (sampled s (afterRegout s.sig) (regoutEvents s.sig (heard s 0)) 16 (heard s 0) 16) := by
  change serveAlone (seqRegout >>= fun _ => pure ()) s = _
  rw [serveAlone, bind_ok (seqRegout_ok s hopen), pure_run]

/-- Settles O16: the value heard is the answer, and sixteen answers are used up where sixteen stand. -/
theorem regoutReturnsAnswer : Obligations.RegoutReturnsAnswer := by
  intro s v rest hopen hsense
  exact ⟨_, exec_regout_opened hopen, heard_answer s v rest hsense, by simp [sampled, hsense],
    by simp [sampled, hsense]⟩

/-- The answers to a group read are the bits of its six registers, one after the other. -/
theorem regsBits_eq_flatMap (r : Regs6) : regsBits r = [r.r0, r.r1, r.r2, r.r3, r.r4, r.r5].flatMap lsbFirst := by
  simp [regsBits]

@[simp] theorem regsBits_length (r : Regs6) : (regsBits r).length = 96 := by
  simp [regsBits]

theorem flatMap_regsBits_length (rs : List Regs6) : (rs.flatMap regsBits).length = 96 * rs.length := by
  simp [List.length_flatMap, Nat.mul_comm]

/-- The registers of a group are those the device answers, in the order read (R132). -/
theorem groupRegs_of_answers {s : State} {r : Regs6} {rest : List Bool} (h : s.sense = regsBits r ++ rest) :
    groupRegs (heard s) = r := by
  rw [regsBits_eq_flatMap] at h
  rw [groupRegs, heard_of_answers h 0 rfl, heard_of_answers h 1 rfl, heard_of_answers h 2 rfl,
    heard_of_answers h 3 rfl, heard_of_answers h 4 rfl, heard_of_answers h 5 rfl]

/-- The words of a read are the UNPACKs of the groups the device answers, in order (R101, R131, D39). -/
theorem groupsWords_of_answers (rs : List Regs6) {s : State} {rest : List Bool}
    (h : s.sense = rs.flatMap regsBits ++ rest) :
    groupsWords (heard s) rs.length = rs.flatMap fun r => groupList (unpackRegs r) := by
  induction rs generalizing s with
  | nil => rfl
  | cons r rs ih =>
    rw [List.flatMap_cons, List.append_assoc] at h
    have hnext : (listened s (16 * 6)).sense = rs.flatMap regsBits ++ rest := by
      simp [listened, h]
    have hheard : (fun i => heard s (6 + i)) = heard (listened s (16 * 6)) :=
      funext fun i => (heard_listened s 6 i).symm
    rw [List.length_cons, groupsWords, groupRegs_of_answers h, hheard, ih hnext, List.flatMap_cons]

/-! ### READ_MEM in a session -/

/-- A read of `k` groups reads six values in each (R132). -/
theorem readsIn_groupsActs {sc : Scripts} (hwf : sc.Wf) (h : Nat → Reg16) (k : Nat) :
    readsIn (groupsActs sc h k) = 6 * k := by
  obtain ⟨hsix, -⟩ := hwf
  induction k generalizing h with
  | zero => rfl
  | succ k ih =>
    rw [groupsActs, readsIn_append, readsIn_itemActs, hsix, ih]
    omega

theorem readsIn_readActs {sc : Scripts} (hwf : sc.Wf) (a : Addr24) (k : Nat) (h : Nat → Reg16) :
    readsIn (readActs sc a k h) = 6 * k := by
  rw [readActs, readsIn_append, readsIn_sends, readsIn_groupsActs hwf, Nat.zero_add]

/-- READ_MEM with a legal count in a session: the block read, and its words (R131). -/
theorem exec_readMem_session {s : State} (a : Addr24) {n : BitVec 7} (hs : Session s)
    (hn : readCountOk n.toNat = true) :
    exec (.readMem a n) s = .next (State.returned
      (State.freeRead (did s (readActs Config.scripts a (n.toNat / 4) (heard s))))
      (groupsWords (heard s) (n.toNat / 4))) := by
  obtain ⟨hmode, -, hopen⟩ := hs
  obtain ⟨k, hread⟩ := readBlock_ok Config.scripts scripts_wf a (n.toNat / 4) s hopen
  have hbody : (engReadMem Config.scripts a n.toNat).run s = .ok (groupsWords (heard s) (n.toNat / 4))
      (withRead (did s (readActs Config.scripts a (n.toNat / 4) (heard s))) k) := by
    rw [engReadMem, bind_ok (requireSession_ok hmode), bind_ok (violateIf_false (by simp [hn]))]
    exact hread
  rw [← freeRead_withRead _ k]
  exact serve_returned State.freeRead hbody

/-- Settles O33: the response carries the words of the groups heard, which are those answered. -/
theorem readMemReturnsAnswers : Obligations.ReadMemReturnsAnswers := by
  intro s a n rs rest hs hpos hle hlen hsense
  have hn : readCountOk n.toNat = true := (readCountOk_iff _).mpr ⟨hpos, by omega, hle⟩
  have hgroups : n.toNat / 4 = rs.length := by omega
  refine ⟨_, exec_readMem_session a hs hn, ?_, ?_⟩
  · rw [returned_responses, hgroups, groupsWords_of_answers rs hsense]
    rfl
  · have hbits : 16 * (6 * rs.length) = (rs.flatMap regsBits).length := by
      rw [flatMap_regsBits_length]
      omega
    rw [returned_sense, freeRead_sense, did_sense, readsIn_readActs scripts_wf, hgroups, hsense, hbits,
      List.drop_left]

/-- Every frame sets the data line before it drives the clock, so the level it had is not seen (R85, R86). -/
theorem actsEvents_data (g : Signals) (b : Bool) (as : List Act) :
    actsEvents { g with data := b } as = actsEvents g as := by
  induction as with
  | nil => rfl
  | cons x as ih =>
    cases x with
    | command first c => rfl
    | read v => rfl
    | wait ms => exact congrArg (Event.delay ms :: ·) ih

/-- The lines of two sessions differ in the data line only. -/
theorem sig_eq_of_sessions {s s' : State} (hs : Session s) (hs' : Session s') (hl : LinesOk s) (hl' : LinesOk s') :
    s'.sig = { s.sig with data := s'.sig.data } := by
  obtain ⟨hclock, -, hlines⟩ := hl
  obtain ⟨hclock', -, hlines'⟩ := hl'
  obtain ⟨-, -, hopen⟩ := hs
  obtain ⟨-, -, hopen'⟩ := hs'
  obtain ⟨hreset, hpower, -⟩ := hlines hopen
  obtain ⟨hreset', hpower', -⟩ := hlines' hopen'
  change s'.sig = ⟨s.sig.reset, s.sig.power, s'.sig.data, s.sig.clock⟩
  rw [hclock.trans hclock'.symm, hreset.trans hreset'.symm, hpower.trans hpower'.symm]

/-- Settles O34: the two reads do the same acts, whose events do not see the one line level that may differ. -/
theorem readTraceRepeats : Obligations.ReadTraceRepeats := by
  intro s s' a n hs hs' hl hl' hpos hmod hle hheard
  have hn : readCountOk n.toNat = true := (readCountOk_iff _).mpr ⟨hpos, hmod, hle⟩
  refine ⟨_, _, _, exec_readMem_session a hs hn, exec_readMem_session a hs' hn, rfl, ?_⟩
  rw [returned_trace, freeRead_trace, did_trace, ← funext hheard, sig_eq_of_sessions hs hs' hl hl', actsEvents_data]

end Sys2Proof.Proofs
end

section
/-! PROOFS. The family `30_encoding.md`: the encoder and the decoder agree both ways (R60 to R68), what becomes of any header
(R62, R71, R164, R166), the aliases of the text (R72), and the wire frames on an open driver (R65 to R68). -/

namespace Sys2Proof.Proofs

open Sys2Proof.Machine Sys2Proof.Safety Sys2Proof.Laws

/-! ### Decoding an encoded instruction -/

/-- Settles O1, row by row. -/
theorem decodeOfEncode : Obligations.DecodeOfEncode := by
  intro i
  cases i with
  | beginSession => exact RoundTrip.beginSession
  | endSession => exact RoundTrip.endSession
  | readDevid => exact RoundTrip.readDevid
  | readMem a n => exact RoundTrip.readMem a n
  | writeMem a d => exact RoundTrip.writeMem a d
  | readCfg => exact RoundTrip.readCfg
  | writeCfg d => exact RoundTrip.writeCfg d
  | erase => exact RoundTrip.erase
  | startDev => exact RoundTrip.startDev
  | stopDev => exact RoundTrip.stopDev
  | reservedOpAB rest => exact RoundTrip.reservedOpAB rest
  | reservedOpCF rest => exact RoundTrip.reservedOpCF rest
  | enter => exact RoundTrip.enter
  | leave => exact RoundTrip.leave
  | execCmd first c => exact RoundTrip.execCmd first c
  | regout => exact RoundTrip.regout
  | pack w0 w1 w2 w3 => exact RoundTrip.pack w0 w1 w2 w3
  | unpack r0 r1 r2 r3 r4 r5 => exact RoundTrip.unpack r0 r1 r2 r3 r4 r5
  | keyFrame => exact RoundTrip.keyFrame
  | sixFrame c => exact RoundTrip.sixFrame c
  | sixFirstFrame c => exact RoundTrip.sixFirstFrame c
  | regoutFrame r => exact RoundTrip.regoutFrame r

/-- Settles O5. -/
theorem specWordsDecode : Obligations.SpecWordsDecode := by
  unfold Obligations.SpecWordsDecode
  decide

/-! ### A header and its fields -/

/-- A header whose reserved fields are zero is put together from its operation code, `N` and `A` (R60). -/
theorem header_fields {hdr : BitVec 64} (h : hdrReservedZero hdr = true) :
    header (hdrOp hdr) (hdrN hdr) (hdrA hdr) = hdr := by
  rw [hdrReservedZero, Bool.and_eq_true, beq_iff_eq, beq_iff_eq] at h
  obtain ⟨hhigh, hlow⟩ := h
  rw [header, ← hhigh, ← hlow, hdrOp, hdrN, hdrA, BitVec.extractLsb'_append_extractLsb'_eq_extractLsb',
    BitVec.extractLsb'_append_extractLsb'_eq_extractLsb', BitVec.extractLsb'_append_extractLsb'_eq_extractLsb',
    BitVec.extractLsb'_append_extractLsb'_eq_extractLsb']
  · exact BitVec.extractLsb'_eq_self
  all_goals rfl

/-- The three bits that 0xA and 0xB share, and the header's other 61 (R71). -/
theorem append_reservedAB {hdr : BitVec 64} (h : (hdrOp hdr).toNat = 10 ∨ (hdrOp hdr).toNat = 11) :
    (0b101 : BitVec 3) ++ hdr.extractLsb' 0 61 = hdr := by
  have htop : (0b101 : BitVec 3) = hdr.extractLsb' 61 3 := by
    apply BitVec.eq_of_toNat_eq
    simp only [hdrOp, BitVec.extractLsb'_toNat, Nat.shiftRight_eq_div_pow] at h ⊢
    simp only [BitVec.reduceToNat]
    omega
  rw [htop]
  exact BitVec.extractLsb'_append_extractLsb' (w := 3) (len := 61)

/-- The two bits that 0xC to 0xF share, and the header's other 62 (R71). -/
theorem append_reservedCF {hdr : BitVec 64} (h : 12 ≤ (hdrOp hdr).toNat) :
    (0b11 : BitVec 2) ++ hdr.extractLsb' 0 62 = hdr := by
  have htop : (0b11 : BitVec 2) = hdr.extractLsb' 62 2 := by
    apply BitVec.eq_of_toNat_eq
    simp only [hdrOp, BitVec.extractLsb'_toNat, Nat.shiftRight_eq_div_pow] at h ⊢
    simp only [BitVec.reduceToNat]
    omega
  rw [htop]
  exact BitVec.extractLsb'_append_extractLsb' (w := 2) (len := 62)

/-! ### What a header decodes to -/

/-- What a header decodes to by its fields alone (R62): the instruction whose own word it is where the unused and reserved
ones are zero, and IR_FIELD where one is not. -/
def OperationOrField (hdr : BitVec 64) (data : List Word24) (x : Except Reject Instr) : Prop :=
  ∃ i, x = (if unusedZero hdr then .ok i else .error .irField) ∧
    (unusedZero hdr = true → encode i = .request hdr data)

/-- The shape of every line of the request table: the field check is R62's, the data words are as many as they must be, and
the line's instruction is encoded as the header. -/
theorem operationOrField_ite {hdr : BitVec 64} {data : List Word24} {fields : Bool} {count : Prop} [Decidable count]
    {i : Instr} (hfields : unusedZero hdr = fields) (hcount : count)
    (henc : unusedZero hdr = true → encode i = .request hdr data) :
    OperationOrField hdr data
      (if fields then if count then .ok i else .error .dataCount else .error .irField) :=
  ⟨i, by simp [hfields, hcount], henc⟩

/-- An operation without operands uses neither `N` nor `A` (R61). -/
theorem unusedZero_eq_of_bare {hdr : BitVec 64} (h3 : hdrOp hdr ≠ 3) (h4 : hdrOp hdr ≠ 4) (h6 : hdrOp hdr ≠ 6) :
    unusedZero hdr = (hdrReservedZero hdr && hdrN hdr == 0 && hdrA hdr == 0) := by
  rw [unusedZero, beq_false_of_ne h3, beq_false_of_ne h4, beq_false_of_ne h6, Bool.and_right_comm]
  simp only [Bool.false_or]

/-- READ_MEM and WRITE_MEM use both (R61). -/
theorem unusedZero_eq_of_mem {hdr : BitVec 64} (h : hdrOp hdr = 3 ∨ hdrOp hdr = 4) :
    unusedZero hdr = hdrReservedZero hdr := by
  obtain h | h := h <;> simp [unusedZero, h]

/-- WRITE_CFG uses `N` (R61). -/
theorem unusedZero_eq_of_writeCfg {hdr : BitVec 64} (h : hdrOp hdr = 6) :
    unusedZero hdr = (hdrReservedZero hdr && hdrA hdr == 0) := by
  simp [unusedZero, h]

/-- A line without operands: its header is the operation code and zeros, and no data words follow (R60, R61). -/
theorem operationOrField_bare {hdr : BitVec 64} {data : List Word24} {op : BitVec 4} {i : Instr}
    (henc : encode i = .request (header op 0 0) []) (hop : hdrOp hdr = op) (huses : op ≠ 3 ∧ op ≠ 4 ∧ op ≠ 6)
    (hconf : Conforms hdr data) : OperationOrField hdr data (decodeBare hdr data i) := by
  subst hop
  obtain ⟨h3, h4, h6⟩ := huses
  have hdata : data.isEmpty = true :=
    isEmpty_of_conforms hconf (fun h => h4 (BitVec.eq_of_toNat_eq h)) (fun h => h6 (BitVec.eq_of_toNat_eq h))
  refine operationOrField_ite (unusedZero_eq_of_bare h3 h4 h6) hdata fun hzero => ?_
  rw [unusedZero_eq_of_bare h3 h4 h6, Bool.and_eq_true, Bool.and_eq_true, beq_iff_eq, beq_iff_eq] at hzero
  obtain ⟨⟨hres, hn⟩, ha⟩ := hzero
  rw [henc, List.isEmpty_iff.mp hdata, ← hn, ← ha, header_fields hres]

/-- A header with an operation of R61: where each line checks the fields its operation does not use, it checks R62's. -/
theorem decodeRequest_operation {hdr : BitVec 64} {data : List Word24} (hconf : Conforms hdr data)
    (hop : (hdrOp hdr).toNat < 10) : OperationOrField hdr data (decodeRequest hdr data) := by
  unfold decodeRequest
  split
  -- Counted from OP 0: the three operations with operands, then the reserved codes, then the operations without.
  case h_4 h3 =>
    have h3 : hdrOp hdr = 3 := BitVec.eq_of_toNat_eq h3
    have hdata : data.isEmpty = true := isEmpty_of_conforms hconf (by simp [h3]) (by simp [h3])
    refine operationOrField_ite (unusedZero_eq_of_mem (.inl h3)) hdata fun hzero => ?_
    rw [unusedZero_eq_of_mem (.inl h3)] at hzero
    rw [encode, ← h3, header_fields hzero, List.isEmpty_iff.mp hdata]
  case h_5 h4 =>
    have h4 : hdrOp hdr = 4 := BitVec.eq_of_toNat_eq h4
    have hlen : data.length = (hdrN hdr).toNat := length_of_conforms hconf (.inl (by simp [h4]))
    refine operationOrField_ite (unusedZero_eq_of_mem (.inr h4)) hlen fun hzero => ?_
    rw [unusedZero_eq_of_mem (.inr h4)] at hzero
    rw [encode, ← h4, hlen, BitVec.ofNat_toNat, BitVec.setWidth_eq, header_fields hzero]
  case h_7 h6 =>
    have h6 : hdrOp hdr = 6 := BitVec.eq_of_toNat_eq h6
    have hlen : data.length = (hdrN hdr).toNat := length_of_conforms hconf (.inr (by simp [h6]))
    refine operationOrField_ite (unusedZero_eq_of_writeCfg h6) hlen fun hzero => ?_
    rw [unusedZero_eq_of_writeCfg h6, Bool.and_eq_true, beq_iff_eq] at hzero
    obtain ⟨hres, ha⟩ := hzero
    rw [encode, ← h6, ← ha, hlen, BitVec.ofNat_toNat, BitVec.setWidth_eq, header_fields hres]
  case h_11 | h_12 => omega
  case h_13 =>
    simp only [imp_false] at *
    omega
  all_goals
    rename_i hbare
    exact operationOrField_bare rfl (BitVec.eq_of_toNat_eq hbare) (by decide) hconf

/-- A reserved operation code, whatever the other fields are: its own instruction, which answers IR_OPCODE (R71, R164). -/
theorem decodeRequest_reserved {hdr : BitVec 64} {data : List Word24} (hconf : Conforms hdr data)
    (hop : 10 ≤ (hdrOp hdr).toNat) :
    ∃ i, decodeRequest hdr data = .ok i ∧ encode i = .request hdr data ∧
      ∀ s, exec i s = .next (s.raised (.illegal .opcode)) := by
  have hdata : data = [] := List.isEmpty_iff.mp (isEmpty_of_conforms hconf (by omega) (by omega))
  unfold decodeRequest
  split
  case h_11 h10 => exact ⟨_, rfl, by rw [encode, append_reservedAB (.inl h10), hdata], fun _ => rfl⟩
  case h_12 h11 => exact ⟨_, rfl, by rw [encode, append_reservedAB (.inr h11), hdata], fun _ => rfl⟩
  case h_13 h10 h11 =>
    have h12 : 12 ≤ (hdrOp hdr).toNat := by
      rw [imp_false] at h10 h11
      omega
    exact ⟨_, rfl, by rw [encode, append_reservedCF h12, hdata], fun _ => rfl⟩
  all_goals omega

/-- Settles O2: an operation's instruction has the header as its word by `decodeRequest_operation`, a reserved code's by
`decodeRequest_reserved`. -/
theorem decodedRequestReencodes : Obligations.DecodedRequestReencodes := by
  intro hdr data i hconf hdec
  refine ⟨?_, isRequest_of_decodeRequest hdec⟩
  rw [decode] at hdec
  by_cases hop : (hdrOp hdr).toNat < 10
  · obtain ⟨j, hj, henc⟩ := decodeRequest_operation hconf hop
    cases hzero : unusedZero hdr with
    | true =>
      cases hdec.symm.trans (hj.trans (if_pos hzero))
      exact henc hzero
    | false => cases hdec.symm.trans (hj.trans (if_neg (Bool.eq_false_iff.mp hzero)))
  · obtain ⟨j, hj, henc, -⟩ := decodeRequest_reserved hconf (Nat.not_lt.mp hop)
    cases hdec.symm.trans hj
    exact henc

/-- Settles O3. -/
theorem headerIsOperationOrIllegal : Obligations.HeaderIsOperationOrIllegal := by
  intro s hdr data rest hpend hconf
  refine ⟨fun hop => ?_, fun hop hzero => ?_, fun hop hzero => ?_⟩
  · obtain ⟨i, hdec, -, hexec⟩ := decodeRequest_reserved hconf hop
    exact (step_of_decoded hpend hdec).trans (hexec _)
  · obtain ⟨i, hdec, -⟩ := decodeRequest_operation hconf hop
    exact step_of_rejected hpend (hdec.trans (if_neg (Bool.eq_false_iff.mp hzero)))
  · obtain ⟨i, hdec, -⟩ := decodeRequest_operation hconf hop
    exact ⟨i, hdec.trans (if_pos hzero)⟩

/-- Settles O4: `FATAL` is set whatever it was. -/
theorem reservedOpIsIllegal : Obligations.ReservedOpIsIllegal := by
  have hraised (s : State) : s.raised (.illegal .opcode) = { s with
      status := .illegalRequest, fatal := true
      responses := ⟨.illegalRequest, [], some (.illegal .opcode)⟩ :: s.responses } := by
    rw [State.raised, Err.setsFatal, Bool.or_true]
    rfl
  exact fun s r q => ⟨congrArg Host.Outcome.next (hraised s), congrArg Host.Outcome.next (hraised s)⟩

/-! ### The name a line opens with -/

/-- A name as a line can open with: it is not empty, and no blank and no comment is in it (log 22). -/
def IsName (name : List Char) : Prop := name ≠ [] ∧ name.all (fun c => !isBlank c && c != ';') = true

theorem IsName.not_blank {name : List Char} (hname : IsName name) : ∀ c ∈ name, (!isBlank c) = true := fun c hc =>
  (Bool.and_eq_true_iff.mp (List.all_eq_true.mp hname.2 c hc)).1

theorem IsName.not_comment {name : List Char} (hname : IsName name) : ∀ c ∈ name, (c != ';') = true := fun c hc =>
  (Bool.and_eq_true_iff.mp (List.all_eq_true.mp hname.2 c hc)).2

/-- What a line holds after its name: its comment and the blanks at its end are gone (log 22). -/
def afterName (rest : List Char) : List Char := (rest.takeWhile (· != ';')).rdropWhile isBlank

theorem rdropWhile_name_append {name : List Char} (hname : IsName name) (cs : List Char) :
    (name ++ cs).rdropWhile isBlank = name ++ cs.rdropWhile isBlank := by
  induction cs using List.reverseRecOn with
  | nil =>
    have hlast (hne : name ≠ []) := hname.not_blank _ (List.getLast_mem hne)
    simpa [List.rdropWhile_eq_self_iff] using hlast
  | append_singleton cs c ih =>
    rw [← List.append_assoc, List.rdropWhile_concat, List.rdropWhile_concat]
    split
    · exact ih
    · exact List.append_assoc name cs [c]

/-- Trimming a text that opens with a name touches the text's end only. -/
theorem trim_name_append {name : List Char} (hname : IsName name) (cs : List Char) :
    trim (name ++ cs) = name ++ cs.rdropWhile isBlank := by
  have hfront : (name ++ cs).dropWhile isBlank = name ++ cs := by
    cases name with
    | nil => exact absurd rfl hname.1
    | cons c name => simpa using hname.not_blank c
  calc trim (name ++ cs) = ((name ++ cs).dropWhile isBlank).rdropWhile isBlank := rfl
    _ = (name ++ cs).rdropWhile isBlank := by rw [hfront]
    _ = name ++ cs.rdropWhile isBlank := rdropWhile_name_append hname cs

theorem lineBody_name_append {name : List Char} (hname : IsName name) (rest : List Char) :
    lineBody (name ++ rest) = name ++ afterName rest := by
  rw [lineBody, List.takeWhile_append_of_pos hname.not_comment, trim_name_append hname, afterName]

/-- What follows the name is set off from it by a blank. -/
theorem isBlank_of_head_afterName {rest : List Char} (hrest : ∀ c ∈ rest.head?, isBlank c = true ∨ c = ';') :
    ∀ c ∈ (afterName rest).head?, isBlank c = true := by
  intro c hc
  rw [afterName] at hc
  have hhead : (rest.takeWhile (· != ';')).head? = some c := by
    rw [← List.rdropWhile_append_rtakeWhile (p := isBlank) (l := rest.takeWhile (· != ';')),
      List.head?_append, Option.mem_def.mp hc, Option.some_or]
  rw [List.head?_takeWhile] at hhead
  obtain ⟨hrestHead, hcomment⟩ := Option.filter_eq_some_iff.mp hhead
  exact (hrest c hrestHead).resolve_right (by simpa using hcomment)

theorem lineName_name_append {name rest : List Char} (hname : IsName name)
    (hrest : ∀ c ∈ rest.head?, isBlank c = true ∨ c = ';') : lineName (name ++ rest) = name := by
  have hend : (afterName rest).takeWhile (fun c => !isBlank c) = [] := by
    cases h : afterName rest with
    | nil => rfl
    | cons c cs => simp [isBlank_of_head_afterName hrest c (by simp [h])]
  rw [lineName, lineBody_name_append hname, List.takeWhile_append_of_pos hname.not_blank, hend,
    List.append_nil]

/-- The operands do not depend on the name. -/
theorem lineOperands_name_append {name name' : List Char} (hname : IsName name) (hname' : IsName name')
    (rest : List Char) : lineOperands (name ++ rest) = lineOperands (name' ++ rest) := by
  rw [lineOperands, lineOperands, lineBody_name_append hname, lineBody_name_append hname',
    List.dropWhile_append_of_pos hname.not_blank, List.dropWhile_append_of_pos hname'.not_blank]

theorem isName_of_mem_aliases : ∀ p ∈ aliases, IsName p.1.toList ∧ IsName p.2.toList := by
  unfold IsName
  decide

theorem mnemonicOf_alias : ∀ p ∈ aliases, mnemonicOf p.2.toList = mnemonicOf p.1.toList := by
  decide

/-- Settles O6: the two lines give one mnemonic and the same operands. -/
theorem aliasesAssembleAlike : Obligations.AliasesAssembleAlike := by
  intro p hp rest hrest
  obtain ⟨hname, halias⟩ := isName_of_mem_aliases p hp
  rw [assemble, assemble, lineName_name_append halias hrest, lineName_name_append hname hrest, mnemonicOf_alias p hp,
    lineOperands_name_append halias hname]

/-! ### The wire frames -/

theorem serveAlone_ok {body : Op Unit} {s t : State} (h : body.run s = .ok () t) : serveAlone body s = .next t := by
  rw [serveAlone, h]

/-- The key ends in a one, and the clock falls after it (R65, R82). -/
theorem wireAfter_key (w : Option Signals) (g : Signals) :
    wireAfter w (bitsEvents g (msbFirst Config.key)) = some { g with data := true, clock := false } := rfl

theorem exec_keyFrame_opened {s : State} (hopen : s.drv = .opened) :
    exec .keyFrame s = .next { drove s { s.sig with data := true, clock := false }
      (bitsEvents s.sig (msbFirst Config.key)) with bitcnt := 32 } :=
  serveAlone_ok ((bind_ok (requireOpen_ok s hopen)).trans (sendKey_ok s))

/-- EXEC run alone on an open driver: the SIX frame, which leaves data at the command's bit 23 (R85, R87). -/
theorem serveAlone_seqExec_opened (c : Cmd) (first : Bool) {s : State} (hopen : s.drv = .opened) :
    serveAlone (seqExec c first) s = .next { s with
      cmdsr := c, first := first, bitcnt := 24, sig := afterSix s.sig c, wire := some (afterSix s.sig c)
      trace := (sixEvents s.sig first c).reverse ++ s.trace } := by
  rw [serveAlone_ok (seqExec_ok c first s hopen), drove, wireAfter_six]

/-- The sixteen bits the frame brings are the sixteen that REGOUT samples, so the device's own answers stay (R68; log 10). -/
theorem exec_regoutFrame_opened (r : Reg16) {s : State} (hopen : s.drv = .opened) :
    exec (.regoutFrame r) s = .next { drove s (afterRegout s.sig) (regoutEvents s.sig r) with rv := r, bitcnt := 16 } := by
  have hheard : heard { s with sense := lsbFirst r ++ s.sense } 0 = r := heard_answer _ r s.sense rfl
  refine serveAlone_ok ?_
  rw [bind_ok (requireOpen_ok s hopen), update_bind]
  change (seqRegout >>= fun _ => pure ()).run _ = _
  rw [bind_ok (seqRegout_ok { s with sense := lsbFirst r ++ s.sense } hopen), pure_run, hheard]
  simp [sampled, drove]

/-- Settles O19: each frame by its own law, and the levels it commits last. -/
theorem framesAsOriginated : Obligations.FramesAsOriginated := by
  intro s c r hopen
  refine ⟨⟨32, ?_⟩, ⟨24, serveAlone_seqExec_opened c false hopen⟩, ⟨24, serveAlone_seqExec_opened c true hopen⟩, ⟨16, ?_⟩⟩
  · rw [exec_keyFrame_opened hopen, drove, wireAfter_key]
  · rw [exec_regoutFrame_opened r hopen, drove, wireAfter_regout]
    rfl

end Sys2Proof.Proofs
end

section
/-! PROOFS. The family `40_sequencer.md`: what the four primitives do on a driver in the right state (R83 to R86) and in the
wrong one (R80, R162), and the table of their events and levels (R87). -/

namespace Sys2Proof.Proofs

open Sys2Proof.Machine Sys2Proof.Safety Sys2Proof.Laws

/-! ### The primitives on a driver in the right state -/

/-- ENTER commits 1100 last (R83). -/
theorem wireAfter_enter (w : Option Signals) : wireAfter w enterEvents = some running := rfl

theorem exec_enter_released {s : State} (hdrv : s.drv = .released) :
    exec .enter s = .next { s with
      drv := .opened, sig := running, wire := some running, bitcnt := 32, trace := enterEvents.reverse ++ s.trace } := by
  refine (serveAlone_ok (seqEnter_ok s hdrv)).trans ?_
  rw [drove, wireAfter_enter]

theorem exec_leave_opened {s : State} (hopen : s.drv = .opened) :
    exec .leave s = .next { drove s { s.sig with reset := false, power := false } (leaveEvents s.sig) with
      drv := .released } :=
  serveAlone_ok (seqLeave_ok s hopen)

/-- Settles O12, by `exec_enter_released` and `seqEnter_error`. -/
theorem enterEffect : Obligations.EnterEffect := fun s =>
  ⟨fun hdrv => ⟨32, exec_enter_released hdrv⟩, seqEnter_error s⟩

/-- Settles O13: the second of LEAVE's two commits is the one the wire keeps. -/
theorem leaveEffect : Obligations.LeaveEffect := fun s => ⟨exec_leave_opened, seqLeave_error s⟩

/-- Settles O14: EXEC is the SIX frame of `serveAlone_seqExec_opened`. -/
theorem execEffect : Obligations.ExecEffect := fun s c first =>
  ⟨fun hopen => ⟨24, serveAlone_seqExec_opened c first hopen⟩, seqExec_error c first s⟩

/-- Settles O15: the frame of `exec_regout_opened`, and the levels it commits last. -/
theorem regoutEffect : Obligations.RegoutEffect := by
  intro s
  refine ⟨fun hopen => ⟨16, ?_⟩, seqRegout_error s⟩
  rw [exec_regout_opened hopen, sampled, wireAfter_regout]
  rfl

/-! ### The primitives on a driver in the wrong state -/

/-- A primitive or frame that raises before it writes anything changes only what a response does (R161, R162; log 9). -/
theorem serveAlone_violated {body : Op Unit} {c : PvCause} {s : State} (h : body.run s = .error (.violation c) s) :
    serveAlone body s = .next (s.raised (.violation c)) := by
  rw [serveAlone, h]

/-- Settles O17: the check of R80 stands before all else, in the primitive itself or in the frame. -/
theorem primitivesCheckDriver : Obligations.PrimitivesCheckDriver := by
  intro s c first r
  refine ⟨fun hopen => serveAlone_violated (seqEnter_error s hopen), fun hdrv => ?_⟩
  have hcheck (f : Unit → Op Unit) : (requireOpen >>= f).run s = .error (.violation .driverClosed) s :=
    bind_error (requireOpen_error s hdrv)
  exact ⟨serveAlone_violated (seqLeave_error s hdrv), serveAlone_violated (seqExec_error c first s hdrv),
    serveAlone_violated (bind_error (seqRegout_error s hdrv)), serveAlone_violated (hcheck _),
    serveAlone_violated (seqExec_error c false s hdrv), serveAlone_violated (seqExec_error c true s hdrv),
    serveAlone_violated (hcheck _)⟩

/-! ### How many events a frame has -/

/-- Commits only are as many commits as events, no sample, and no other event. -/
theorem counts_of_commits {evs : List Event} (h : ∀ e ∈ evs, isCommit e = true) :
    evs.countP isCommit = evs.length ∧ evs.countP isSample = 0 ∧ ∀ e, isCommit e = false → evs.count e = 0 := by
  refine ⟨List.countP_eq_length.2 h, List.countP_eq_zero.2 fun e he => ?_, fun e hother => List.count_eq_zero.2 fun he => ?_⟩
  · cases e with
    | commit => exact Bool.false_ne_true
    | sample | delay | driverOpen | driverClose => cases h _ he
  · cases hother.symm.trans (h e he)

@[simp] theorem pulsesEvents_length (n : Nat) (g : Signals) : (pulsesEvents n g).length = 2 * n := by
  simp [pulsesEvents, pulseEvents, Nat.mul_comm]

theorem isCommit_of_mem_pulsesEvents {n : Nat} {g : Signals} : ∀ e ∈ pulsesEvents n g, isCommit e = true := by
  induction n with
  | zero => simp [pulsesEvents]
  | succ n ih => simpa [pulsesEvents_succ, pulseEvents, isCommit] using ih

@[simp] theorem bitsEvents_length (g : Signals) (bs : List Bool) : (bitsEvents g bs).length = 3 * bs.length := by
  induction bs generalizing g with
  | nil => rfl
  | cons b bs ih => simp [bitsEvents, pulseEvents, ih]; omega

theorem isCommit_of_mem_bitsEvents {g : Signals} {bs : List Bool} : ∀ e ∈ bitsEvents g bs, isCommit e = true := by
  induction bs generalizing g with
  | nil => simp [bitsEvents]
  | cons b bs ih => simpa [bitsEvents, pulseEvents, isCommit] using ih

/-- Each sampled bit is a sample between two commits (R86). -/
theorem sampleEvents_counts (g : Signals) (bs : List Bool) :
    (bs.flatMap (sampleEvents g)).length = 3 * bs.length ∧
      (bs.flatMap (sampleEvents g)).countP isCommit = 2 * bs.length ∧
      (bs.flatMap (sampleEvents g)).countP isSample = bs.length := by
  induction bs with
  | nil => exact ⟨rfl, rfl, rfl⟩
  | cons b bs ih =>
    obtain ⟨hlen, hcommits, hsamples⟩ := ih
    simp [sampleEvents, List.countP_cons, isCommit, isSample, hlen, hcommits, hsamples]
    omega

/-- A SIX frame is commits only: one for data, two for each padding clock, three for each command bit (R87). -/
theorem sixEvents_counts (g : Signals) (first : Bool) (c : Cmd) :
    (sixEvents g first c).length = (if first then 91 else 81) ∧
      (sixEvents g first c).countP isCommit = (if first then 91 else 81) := by
  have hlen : (sixEvents g first c).length = if first then 91 else 81 := by
    cases first <;> simp [sixEvents]
  have hmem : ∀ e ∈ sixEvents g first c, isCommit e = true :=
    List.forall_mem_append.2 ⟨List.forall_mem_cons.2 ⟨rfl, isCommit_of_mem_pulsesEvents⟩, isCommit_of_mem_bitsEvents⟩
  exact ⟨hlen, (counts_of_commits hmem).1.trans hlen⟩

/-- A REGOUT frame is the 26 commits of its head, then three events for each of the 16 bits, one a sample (R87). -/
theorem regoutEvents_counts (g : Signals) (v : Reg16) :
    (regoutEvents g v).length = 74 ∧ (regoutEvents g v).countP isCommit = 58 ∧
      (regoutEvents g v).countP isSample = 16 := by
  obtain ⟨hlen, hcommits, hsamples⟩ := sampleEvents_counts { g with data := false } (lsbFirst v)
  obtain ⟨hpadCommits, hpadSamples, -⟩ :=
    counts_of_commits (isCommit_of_mem_pulsesEvents (n := 11) (g := { g with data := false }))
  simp [regoutEvents, pulseEvents, List.countP_cons, isCommit, isSample, hlen, hcommits, hsamples, hpadCommits, hpadSamples]

/-- ENTER (R87): the driver's opening, 102 commits, of which 96 are the key's bits, and the two delays. -/
theorem enterEvents_counts : enterEvents.length = 105 ∧ enterEvents.countP isCommit = 102 ∧
    enterEvents.countP isSample = 0 ∧ enterEvents.count (.delay 5) = 1 ∧ enterEvents.count (.delay 30) = 1 ∧
    enterEvents.count .driverOpen = 1 := by
  obtain ⟨hcommits, hsamples, hothers⟩ :=
    counts_of_commits (isCommit_of_mem_bitsEvents (g := powered) (bs := msbFirst Config.key))
  simp [enterEvents, List.countP_cons, isCommit, isSample, hcommits, hsamples, hothers (.delay 5) rfl,
    hothers (.delay 30) rfl, hothers .driverOpen rfl]

/-- The table's row of EXEC, for both values of `FIRST` (R87). -/
theorem exec_execCmd_counts (c : Cmd) (first : Bool) {s : State} (hopen : s.drv = .opened) :
    ∃ t evs, exec (.execCmd first c) s = .next t ∧ t.trace = evs ++ s.trace ∧
      evs.length = (if first then 91 else 81) ∧ evs.countP isCommit = (if first then 91 else 81) ∧
      t.sig = afterSix s.sig c ∧ t.wire = some t.sig := by
  obtain ⟨hlen, hcommits⟩ := sixEvents_counts s.sig first c
  exact ⟨_, (sixEvents s.sig first c).reverse, serveAlone_seqExec_opened c first hopen, rfl,
    List.length_reverse.trans hlen, List.countP_reverse.trans hcommits, rfl, rfl⟩

/-- Settles O18: what each primitive adds to the trace, by its effect, counted by the lemmas on its events. -/
theorem primitiveEventCounts : Obligations.PrimitiveEventCounts := by
  intro s c
  refine ⟨fun hdrv => ?enter,
    fun hopen => ⟨?leave, exec_execCmd_counts c false hopen, exec_execCmd_counts c true hopen, ?regout⟩⟩
  case enter =>
    refine ⟨_, enterEvents.reverse, exec_enter_released hdrv, rfl, ?_⟩
    simpa [running] using enterEvents_counts
  case leave =>
    exact ⟨_, (leaveEvents s.sig).reverse, exec_leave_opened hopen, rfl, rfl, rfl, rfl, rfl, rfl, id⟩
  case regout =>
    obtain ⟨hlen, hcommits, hsamples⟩ := regoutEvents_counts s.sig (heard s 0)
    exact ⟨_, (regoutEvents s.sig (heard s 0)).reverse, exec_regout_opened hopen, rfl, List.length_reverse.trans hlen,
      List.countP_reverse.trans hcommits, List.countP_reverse.trans hsamples, rfl,
      wireAfter_regout s.wire s.sig (heard s 0)⟩

end Sys2Proof.Proofs
end

section
/-! PROOFS. The family `41_codec.md`: PACK and UNPACK by their formulas (R100, R101), that each undoes the other (R102), and a
block that the device echoes (§8, test S8). -/

namespace Sys2Proof.Proofs

open Sys2Proof.Machine Sys2Proof.Safety Sys2Proof.Laws

/-! ### Words and registers in halves -/

theorem append_toNat {m k : Nat} (x : BitVec m) (y : BitVec k) : (x ++ y).toNat = x.toNat * 2 ^ k + y.toNat := by
  rw [BitVec.toNat_append, ← Nat.shiftLeft_add_eq_or_of_lt y.isLt, Nat.shiftLeft_eq]

/-- The high part of a concatenation, whole. -/
theorem extract_top {m k : Nat} (x : BitVec m) (y : BitVec k) : (x ++ y).extractLsb' k m = x := by
  rw [extract_high x y k m (Nat.le_refl k), Nat.sub_self, extract_all]

/-- A word's high byte is what an address calls `hi` (R42, R100). -/
theorem wordHigh_toNat (w : Word24) : (w.extractLsb' 16 8).toNat = w.toNat / 65536 := addrHi_toNat w

theorem wordLow_toNat (w : Word24) : (w.extractLsb' 0 16).toNat = w.toNat % 65536 := addrLo_toNat w

theorem regHigh_toNat (r : Reg16) : (r.extractLsb' 8 8).toNat = r.toNat / 256 := by
  simp only [BitVec.extractLsb'_toNat, Nat.shiftRight_eq_div_pow]
  omega

theorem regLow_toNat (r : Reg16) : (r.extractLsb' 0 8).toNat = r.toNat % 256 := by
  simp

theorem wordHigh_append_wordLow (w : Word24) : w.extractLsb' 16 8 ++ w.extractLsb' 0 16 = w :=
  BitVec.extractLsb'_append_extractLsb' (w := 8) (len := 16)

theorem regHigh_append_regLow (r : Reg16) : r.extractLsb' 8 8 ++ r.extractLsb' 0 8 = r :=
  BitVec.extractLsb'_append_extractLsb' (w := 8) (len := 8)

/-! ### The formulas of PACK and UNPACK -/

/-- A register that merges the high bytes of two words, the later word's above (R100). -/
theorem mergedHighs_toNat (earlier later : Word24) :
    (later.extractLsb' 16 8 ++ earlier.extractLsb' 16 8).toNat = later.toNat / 65536 * 256 + earlier.toNat / 65536 := by
  rw [append_toNat, wordHigh_toNat, wordHigh_toNat]
  rfl

/-- A word whose high byte is the low byte of the merged register (R101). -/
theorem wordOfLowByte_toNat (merged low : Reg16) :
    (merged.extractLsb' 0 8 ++ low).toNat = low.toNat + merged.toNat % 256 * 65536 := by
  rw [append_toNat, regLow_toNat, Nat.add_comm]
  rfl

/-- A word whose high byte is the high byte of the merged register (R101). -/
theorem wordOfHighByte_toNat (merged low : Reg16) :
    (merged.extractLsb' 8 8 ++ low).toNat = low.toNat + merged.toNat / 256 * 65536 := by
  rw [append_toNat, regHigh_toNat, Nat.add_comm]
  rfl

/-- Settles O20: four registers are low halves, and two merge the high bytes of a pair. -/
theorem packFormulas : Obligations.PackFormulas := by
  intro s w0 w1 w2 w3
  exact ⟨packWords ⟨w0, w1, w2, w3⟩, rfl, wordLow_toNat w0, mergedHighs_toNat w0 w1, wordLow_toNat w1,
    wordLow_toNat w2, mergedHighs_toNat w2 w3, wordLow_toNat w3⟩

/-- Settles O21: each word takes its own half and one byte of its pair's merged register. -/
theorem unpackFormulas : Obligations.UnpackFormulas := by
  intro s r0 r1 r2 r3 r4 r5
  exact ⟨unpackRegs ⟨r0, r1, r2, r3, r4, r5⟩, rfl, wordOfLowByte_toNat r1 r0, wordOfHighByte_toNat r1 r2,
    wordOfLowByte_toNat r4 r3, wordOfHighByte_toNat r4 r5⟩

/-! ### PACK and UNPACK undo each other -/

/-- The two bytes of a merged register are the high bytes of its pair, and each rejoins its low half (R102). -/
@[simp] theorem unpackRegs_packWords (g : Group) : unpackRegs (packWords g) = g := by
  simp only [unpackRegs, packWords, extract_low, extract_top, wordHigh_append_wordLow]

/-- The high bytes of a pair of words are the two bytes of their merged register (R102). -/
@[simp] theorem packWords_unpackRegs (r : Regs6) : packWords (unpackRegs r) = r := by
  simp only [unpackRegs, packWords, extract_low, extract_top, regHigh_append_regLow]

/-- Settles O22, one lemma per direction. -/
theorem codecRoundTrips : Obligations.CodecRoundTrips := ⟨unpackRegs_packWords, packWords_unpackRegs⟩

/-! ### A block that the device echoes -/

/-- The groups of a block, one after the other, are the block's words (R128, R131). -/
theorem flatMap_groupOf_eq_take (d : List Word24) (k : Nat) (hk : 4 * k ≤ d.length) :
    ((List.range k).flatMap fun g => groupList (groupOf d g)) = d.take (4 * k) := by
  induction k with
  | zero => rfl
  | succ k ih =>
    have hnext (i : Nat) (hi : i < d.length) : d.take i ++ [d.getD i 0] = d.take (i + 1) := by
      rw [List.getD_eq_getElem d 0 hi, List.take_append_getElem]
    calc (List.range (k + 1)).flatMap (fun g => groupList (groupOf d g))
        = d.take (4 * k) ++ groupList (groupOf d k) := by
          rw [List.range_succ, List.flatMap_append, ih (by omega), List.flatMap_singleton]
      _ = d.take (4 * k) ++ [d.getD (4 * k) 0] ++ [d.getD (4 * k + 1) 0] ++ [d.getD (4 * k + 2) 0] ++
            [d.getD (4 * k + 3) 0] := by
          simp only [groupList, groupOf, List.append_assoc, List.cons_append, List.nil_append]
      _ = d.take (4 * (k + 1)) := by
          rw [hnext (4 * k) (by omega), hnext (4 * k + 1) (by omega), hnext (4 * k + 2) (by omega),
            hnext (4 * k + 3) (by omega), Nat.mul_succ]

/-- Settles O35: READ_MEM returns the UNPACKs of the answers (O33), and each answer is the PACK of a group (R102). -/
theorem echoedBlockReadsBack : Obligations.EchoedBlockReadsBack := by
  intro s a d rest hs hlen hsense
  have hanswers : s.sense = ((List.range 16).map fun g => packWords (groupOf d g)).flatMap regsBits ++ rest := by
    rw [List.flatMap_map]
    exact hsense
  have hblock : (((List.range 16).map fun g => packWords (groupOf d g)).flatMap fun r => groupList (unpackRegs r)) = d := by
    simp only [List.flatMap_map, unpackRegs_packWords]
    rw [flatMap_groupOf_eq_take d 16 (by omega), List.take_of_length_le (by omega)]
  obtain ⟨t, hexec, hresp, hrest⟩ := readMemReturnsAnswers s a 64 _ rest hs (by decide) (by decide) (by simp) hanswers
  rw [hblock] at hresp
  exact ⟨t, hexec, hresp, hrest⟩

end Sys2Proof.Proofs
end

section
/-! PROOFS. The family `42_engine_session.md`: what BEGIN, END, START_DEV and STOP_DEV do in each control state (R111 to R114),
and that a PreconditionViolation leaves the block as it was (R115, R162). -/

namespace Sys2Proof.Proofs

open Sys2Proof.Machine Sys2Proof.Safety Sys2Proof.Laws

/-! ### The two checks of a request that needs an idle block -/

/-- The checks that `engBegin` and `engStartDev` open with, in the order of R166: no session, and not running (R111, R113). -/
def whenIdle (f : Unit → Op (List Word24)) : Op (List Word24) :=
  violateIf (fun s => s.mode == .sessionOpen) .sessionOpen >>= fun _ => violateIf (fun s => s.run) .running >>= f

theorem whenIdle_idle {s : State} (hs : Idle s) (f : Unit → Op (List Word24)) : (whenIdle f).run s = (f ()).run s := by
  obtain ⟨hmode, hrun, -⟩ := hs
  rw [whenIdle, bind_ok (violateIf_false (by simp [hmode])), bind_ok (violateIf_false hrun)]

theorem whenIdle_session {s : State} (hmode : s.mode = .sessionOpen) (f : Unit → Op (List Word24)) :
    (whenIdle f).run s = .error (.violation .sessionOpen) s :=
  bind_error (violateIf_true (by simp [hmode]))

theorem whenIdle_running {s : State} (hmode : s.mode = .closed) (hrun : s.run = true) (f : Unit → Op (List Word24)) :
    (whenIdle f).run s = .error (.violation .running) s := by
  rw [whenIdle, bind_ok (violateIf_false (by simp [hmode])), bind_error (violateIf_true hrun)]

/-! ### BEGIN and END -/

/-- BEGIN from Idle: ENTER, and the first SIX frame on the lines ENTER leaves (R111, R183). -/
theorem engBegin_idle (sc : Scripts) {s : State} (hs : Idle s) :
    (engBegin sc).run s =
      .ok [] { drove s (afterSix running sc.cmdNop) (enterEvents ++ sixEvents running true sc.cmdNop) with
        drv := .opened, mode := .sessionOpen, cmdsr := sc.cmdNop, first := true, bitcnt := 24 } := by
  obtain ⟨-, -, hdrv⟩ := id hs
  refine (whenIdle_idle hs _).trans ?_
  rw [bind_ok (seqEnter_ok s hdrv), bind_ok (seqExec_ok _ _ _ rfl), update_bind, pure_run, ← drove_drove s running]
  rfl

/-- Settles O23: `engBegin_idle`, whose last commit is the SIX frame's, and the two checks. -/
theorem beginEffect : Obligations.BeginEffect := by
  intro s
  refine ⟨fun hs => ?_, fun hmode => serve_violated _ (whenIdle_session hmode _),
    fun hmode hrun => serve_violated _ (whenIdle_running hmode hrun _)⟩
  refine (serve_returned State.freeSeq (engBegin_idle Config.scripts hs)).trans ?_
  rw [drove, wireAfter_append, wireAfter_six]
  rfl

/-- END from Session: LEAVE (R112). -/
theorem engEnd_session {s : State} (hs : Session s) :
    engEnd.run s = .ok [] { drove s { s.sig with reset := false, power := false } (leaveEvents s.sig) with
      drv := .released, mode := .closed } := by
  obtain ⟨hmode, -, hopen⟩ := hs
  rw [engEnd, bind_ok (violateIf_false (by simp [hmode])), bind_ok (seqLeave_ok s hopen), update_bind, pure_run]

/-- Settles O24: `engEnd_session`, and the check for a session, which is all of it when MODE is Closed. -/
theorem endEffect : Obligations.EndEffect := fun _ =>
  ⟨fun hs => serve_returned id (engEnd_session hs),
    fun hmode => serve_violated id (bind_error (violateIf_true (by simp [hmode])))⟩

/-! ### START_DEV and STOP_DEV -/

/-- START_DEV from Idle: the driver opens with its lines low, and one commit raises power and reset (R113). -/
theorem engStartDev_idle {s : State} (hs : Idle s) :
    engStartDev.run s = .ok [] { drove s running [.driverOpen, .commit running] with drv := .opened, run := true } := by
  refine (whenIdle_idle hs _).trans ?_
  rw [drvOpen_bind, setLine_bind, setLine_bind, commit_bind, update_bind, pure_run]
  rfl

/-- Settles O25: `engStartDev_idle` and the two checks. -/
theorem startDevEffect : Obligations.StartDevEffect := fun _ =>
  ⟨fun hs => serve_returned id (engStartDev_idle hs), fun hmode => serve_violated id (whenIdle_session hmode _),
    fun hmode hrun => serve_violated id (whenIdle_running hmode hrun _)⟩

/-- STOP_DEV from Running: one commit lowers reset and power, and the driver closes (R114). -/
theorem engStopDev_running {s : State} (hs : Running s) :
    engStopDev.run s = .ok [] { drove s { s.sig with reset := false, power := false }
      [.commit { s.sig with reset := false, power := false }, .driverClose] with drv := .released, run := false } := by
  obtain ⟨-, hrun, -⟩ := hs
  rw [engStopDev, bind_ok (violateIf_false (by simp [hrun])), setLine_bind, setLine_bind, commit_bind, drvClose_bind,
    update_bind, pure_run]
  rfl

/-- Settles O26: `engStopDev_running`, and the check that the device runs. -/
theorem stopDevEffect : Obligations.StopDevEffect := fun _ =>
  ⟨fun hs => serve_returned id (engStopDev_running hs),
    fun hrun => serve_violated id (bind_error (violateIf_true (by simp [hrun])))⟩

/-! ### What the body of a device operation raises on an open driver -/

/-- On an open driver the operation yields and the driver stays open, or it raises a WriteTimeout. -/
def YieldsOrTimesOut {α : Type} (x : Op α) : Prop :=
  ∀ s : State, s.drv = .opened →
    (∃ a t, x.run s = .ok a t ∧ t.drv = .opened) ∨ ∃ e t, x.run s = .error e t ∧ e.status = .writeTimeout

theorem yieldsOrTimesOut_bind {α β : Type} {x : Op α} {f : α → Op β} (hx : YieldsOrTimesOut x)
    (hf : ∀ a, YieldsOrTimesOut (f a)) : YieldsOrTimesOut (x >>= f) := by
  intro s hopen
  obtain ⟨a, t, hrun, hopen'⟩ | ⟨e, t, hrun, he⟩ := hx s hopen
  · rw [bind_ok hrun]
    exact hf a t hopen'
  · exact .inr ⟨e, t, bind_error hrun, he⟩

theorem yieldsOrTimesOut_pure {α : Type} (a : α) : YieldsOrTimesOut (pure a : Op α) := fun s hopen =>
  .inl ⟨a, s, rfl, hopen⟩

theorem yieldsOrTimesOut_look : YieldsOrTimesOut look := fun s hopen => .inl ⟨s, s, rfl, hopen⟩

theorem yieldsOrTimesOut_update {f : State → State} (hdrv : ∀ s, (f s).drv = s.drv) : YieldsOrTimesOut (update f) :=
  fun s hopen => .inl ⟨(), f s, rfl, (hdrv s).trans hopen⟩

theorem yieldsOrTimesOut_delay (ms : Nat) : YieldsOrTimesOut (delay ms) := yieldsOrTimesOut_update fun _ => rfl

theorem yieldsOrTimesOut_runCmds (cs : List Cmd) : YieldsOrTimesOut (runCmds cs) := fun s hopen =>
  let ⟨_, hrun⟩ := runCmds_ok cs s hopen
  .inl ⟨_, _, hrun, hopen⟩

section WellFormedScripts

variable {sc : Scripts} (hwf : sc.Wf)
include hwf

theorem yieldsOrTimesOut_readGroup : YieldsOrTimesOut (readGroup sc) := fun s hopen =>
  let ⟨_, hrun⟩ := readGroup_ok sc hwf s hopen
  .inl ⟨_, _, hrun, hopen⟩

theorem yieldsOrTimesOut_readBlock (a : Addr24) (k : Nat) : YieldsOrTimesOut (readBlock sc a k) := fun s hopen =>
  let ⟨_, hrun⟩ := readBlock_ok sc hwf a k s hopen
  .inl ⟨_, _, hrun, hopen⟩

end WellFormedScripts

theorem yieldsOrTimesOut_writeGroups (sc : Scripts) (d : List Word24) (k g : Nat) :
    YieldsOrTimesOut (writeGroups sc d k g) := fun s hopen =>
  let ⟨_, hrun⟩ := writeGroups_ok sc d k g s hopen
  .inl ⟨_, _, hrun, hopen⟩

theorem yieldsOrTimesOut_pollAttempt (sc : Scripts) : YieldsOrTimesOut (pollAttempt sc) := fun s hopen =>
  let ⟨_, hrun⟩ := pollAttempt_ok sc s hopen
  .inl ⟨_, _, hrun, hopen⟩

theorem yieldsOrTimesOut_pollLoop (sc : Scripts) (n : Nat) : YieldsOrTimesOut (pollLoop sc n) := by
  induction n with
  | zero => exact yieldsOrTimesOut_pure false
  | succ n ih =>
    refine yieldsOrTimesOut_bind (yieldsOrTimesOut_update fun _ => rfl) fun _ =>
      yieldsOrTimesOut_bind (yieldsOrTimesOut_pollAttempt sc) fun done => ?_
    cases done with
    | true => exact yieldsOrTimesOut_pure true
    | false => exact ih

/-- The poll is the only place where a device operation raises after its checks (R136, R141). -/
theorem yieldsOrTimesOut_pollOrRaise (sc : Scripts) {e : Err} (he : e.status = .writeTimeout) :
    YieldsOrTimesOut (pollOrRaise sc e) := by
  refine yieldsOrTimesOut_bind (yieldsOrTimesOut_pollLoop sc Config.pollLimit) fun done => ?_
  cases done with
  | true => exact yieldsOrTimesOut_pure ()
  | false => exact fun s _ => .inr ⟨e, s, rfl, he⟩

theorem yieldsOrTimesOut_writeCfgWords (sc : Scripts) (vs : List Word24) (i : Nat) :
    YieldsOrTimesOut (writeCfgWords sc vs i) := by
  induction vs generalizing i with
  | nil => exact yieldsOrTimesOut_pure ()
  | cons v vs ih =>
    exact yieldsOrTimesOut_bind (yieldsOrTimesOut_update fun _ => rfl) fun _ =>
      yieldsOrTimesOut_bind (yieldsOrTimesOut_runCmds _) fun _ => yieldsOrTimesOut_bind (yieldsOrTimesOut_runCmds _) fun _ =>
      yieldsOrTimesOut_bind (yieldsOrTimesOut_delay _) fun _ =>
      yieldsOrTimesOut_bind (yieldsOrTimesOut_pollOrRaise sc rfl) fun _ => ih (i + 1)

/-! ### A PreconditionViolation leaves the block as it was -/

/-- The request was refused with the state as it was, or it was answered with another status (R115, R162). -/
def RefusedOrServed (s : State) (o : Host.Outcome State Fault Refusal) : Prop :=
  (∃ c, o = .next (s.raised (.violation c))) ∨ ∃ t, o = .next t ∧ t.status ≠ .preconditionViolation

theorem refusedOrServed_of_violated {s : State} {o : Host.Outcome State Fault Refusal} {c : PvCause}
    (h : o = .next (s.raised (.violation c))) : RefusedOrServed s o := .inl ⟨c, h⟩

theorem refusedOrServed_of_returned {s u : State} {o : Host.Outcome State Fault Refusal} {v : List Word24}
    (h : o = .next (u.returned v)) : RefusedOrServed s o := .inr ⟨_, h, by simp⟩

/-- A request whose checks pass on an open driver returns or times out. -/
theorem refusedOrServed_serve (free : State → State) {body x : Op (List Word24)} {s : State} (hx : YieldsOrTimesOut x)
    (hopen : s.drv = .opened) (hchecks : body.run s = x.run s) : RefusedOrServed s (serve free body s) := by
  obtain ⟨v, t, hrun, -⟩ | ⟨e, t, hrun, he⟩ := hx s hopen
  · exact refusedOrServed_of_returned (serve_returned free (hchecks.trans hrun))
  · rw [serve, hchecks.trans hrun]
    exact .inr ⟨_, rfl, by simp [he]⟩

/-- A device operation without a session raises PV_NO_SESSION before anything else (R125). -/
theorem exec_deviceOp_closed {i : Instr} (hi : isDeviceOp i = true) {s : State} (hmode : s.mode = .closed) :
    exec i s = .next (s.raised (.violation .noSession)) := by
  have hcheck (f : Unit → Op (List Word24)) : (requireSession >>= f).run s = .error (.violation .noSession) s :=
    bind_error (violateIf_true (by simp [hmode]))
  cases i with
  | readDevid | readMem | writeMem | readCfg | writeCfg | erase => exact serve_violated _ (hcheck _)
  | beginSession | endSession | startDev | stopDev | reservedOpAB | reservedOpCF | enter | leave | execCmd | regout | pack
  | unpack | keyFrame | sixFrame | sixFirstFrame | regoutFrame => cases hi

section InSession

variable {s : State} (hs : Session s) (free : State → State)
include hs

/-- A device operation that checks the session only. -/
theorem refusedOrServed_session {f : Unit → Op (List Word24)} (hf : YieldsOrTimesOut (f ())) :
    RefusedOrServed s (serve free (requireSession >>= f) s) := by
  obtain ⟨hmode, -, hopen⟩ := hs
  exact refusedOrServed_serve free hf hopen (bind_ok (requireSession_ok hmode))

/-- A device operation that checks its operands' shape besides (R46, R166). -/
theorem refusedOrServed_counted {bad : State → Bool} {f : Unit → Op (List Word24)} (hf : YieldsOrTimesOut (f ())) :
    RefusedOrServed s (serve free (requireSession >>= fun _ => violateIf bad .count >>= f) s) := by
  obtain ⟨hmode, -, hopen⟩ := hs
  cases hbad : bad s with
  | true => exact refusedOrServed_of_violated (serve_violated free (countCheck_error hmode hbad f))
  | false =>
    exact refusedOrServed_serve free hf hopen
      ((bind_ok (requireSession_ok hmode)).trans (bind_ok (violateIf_false hbad)))

end InSession

/-- A device operation in a session: its checks stand before its acts, and its acts raise nothing but a WriteTimeout. -/
theorem exec_deviceOp_session {i : Instr} (hi : isDeviceOp i = true) {s : State} (hs : Session s) :
    RefusedOrServed s (exec i s) := by
  cases i with
  | readDevid =>
    exact refusedOrServed_session hs _ <| yieldsOrTimesOut_bind (yieldsOrTimesOut_runCmds _) fun _ =>
      yieldsOrTimesOut_bind (yieldsOrTimesOut_runCmds _) fun _ =>
      yieldsOrTimesOut_bind (yieldsOrTimesOut_readGroup scripts_wf) fun _ =>
      yieldsOrTimesOut_bind yieldsOrTimesOut_look fun _ => yieldsOrTimesOut_pure _
  | readMem => exact refusedOrServed_counted hs _ (yieldsOrTimesOut_readBlock scripts_wf _ _)
  | writeMem =>
    exact refusedOrServed_counted hs _ <| yieldsOrTimesOut_bind (yieldsOrTimesOut_runCmds _) fun _ =>
      yieldsOrTimesOut_bind (yieldsOrTimesOut_writeGroups _ _ _ _) fun _ =>
      yieldsOrTimesOut_bind (yieldsOrTimesOut_runCmds _) fun _ => yieldsOrTimesOut_bind (yieldsOrTimesOut_delay _) fun _ =>
      yieldsOrTimesOut_bind (yieldsOrTimesOut_pollOrRaise _ rfl) fun _ => yieldsOrTimesOut_pure _
  | readCfg => exact refusedOrServed_session hs _ (yieldsOrTimesOut_readBlock scripts_wf _ _)
  | writeCfg =>
    exact refusedOrServed_counted hs _ <| yieldsOrTimesOut_bind (yieldsOrTimesOut_runCmds _) fun _ =>
      yieldsOrTimesOut_bind (yieldsOrTimesOut_writeCfgWords _ _ _) fun _ => yieldsOrTimesOut_pure _
  | erase =>
    exact refusedOrServed_session hs _ <| yieldsOrTimesOut_bind (yieldsOrTimesOut_runCmds _) fun _ =>
      yieldsOrTimesOut_bind (yieldsOrTimesOut_runCmds _) fun _ => yieldsOrTimesOut_bind (yieldsOrTimesOut_delay _) fun _ =>
      yieldsOrTimesOut_pure _
  | beginSession | endSession | startDev | stopDev | reservedOpAB | reservedOpCF | enter | leave | execCmd | regout | pack
  | unpack | keyFrame | sixFrame | sixFirstFrame | regoutFrame => cases hi

theorem exec_deviceOp_refusedOrServed {i : Instr} (hi : isDeviceOp i = true) {s : State} (hctl : ControlOk s) :
    RefusedOrServed s (exec i s) := by
  obtain ⟨hmode, -, -⟩ | hs | ⟨hmode, -, -⟩ := hctl
  · exact refusedOrServed_of_violated (exec_deviceOp_closed hi hmode)
  · exact exec_deviceOp_session hi hs
  · exact refusedOrServed_of_violated (exec_deviceOp_closed hi hmode)

/-- Session control has its effect in one control state and is refused in the other two (R111 to R114). -/
theorem exec_request_refusedOrServed {i : Instr} (hi : isRequest i = true) {s : State} (hctl : ControlOk s) :
    RefusedOrServed s (exec i s) := by
  cases i with
  | beginSession =>
    obtain ⟨hidle, hsession, hrunning⟩ := beginEffect s
    obtain hs | ⟨hmode, -, -⟩ | ⟨hmode, hrun, -⟩ := hctl
    · exact refusedOrServed_of_returned (hidle hs)
    · exact refusedOrServed_of_violated (hsession hmode)
    · exact refusedOrServed_of_violated (hrunning hmode hrun)
  | endSession =>
    obtain ⟨hsession, hclosed⟩ := endEffect s
    obtain ⟨hmode, -, -⟩ | hs | ⟨hmode, -, -⟩ := hctl
    · exact refusedOrServed_of_violated (hclosed hmode)
    · exact refusedOrServed_of_returned (hsession hs)
    · exact refusedOrServed_of_violated (hclosed hmode)
  | startDev =>
    obtain ⟨hidle, hsession, hrunning⟩ := startDevEffect s
    obtain hs | ⟨hmode, -, -⟩ | ⟨hmode, hrun, -⟩ := hctl
    · exact refusedOrServed_of_returned (hidle hs)
    · exact refusedOrServed_of_violated (hsession hmode)
    · exact refusedOrServed_of_violated (hrunning hmode hrun)
  | stopDev =>
    obtain ⟨hrunning, hstopped⟩ := stopDevEffect s
    obtain ⟨-, hrun, -⟩ | ⟨-, hrun, -⟩ | hs := hctl
    · exact refusedOrServed_of_violated (hstopped hrun)
    · exact refusedOrServed_of_violated (hstopped hrun)
    · exact refusedOrServed_of_returned (hrunning hs)
  | reservedOpAB | reservedOpCF => exact .inr ⟨_, rfl, nofun⟩
  | readDevid | readMem | writeMem | readCfg | writeCfg | erase => exact exec_deviceOp_refusedOrServed rfl hctl
  | enter | leave | execCmd | regout | pack | unpack | keyFrame | sixFrame | sixFirstFrame | regoutFrame => cases hi

/-- Settles O44: of the endings of `exec_request_refusedOrServed`, the status leaves only the refusal. -/
theorem violationChangesNothingElse : Obligations.ViolationChangesNothingElse := by
  intro s t i hctl hi h hstatus
  obtain ⟨c, hrefused⟩ | ⟨u, hended, hother⟩ := exec_request_refusedOrServed hi hctl
  · cases hrefused.symm.trans h
    exact ⟨c, rfl⟩
  · cases hended.symm.trans h
    exact absurd hstatus hother

end Sys2Proof.Proofs
end

section
/-! PROOFS. The family `43_engine_transfer.md`: what each device operation does in a session (R130 to R140), that none is served
without one (R125), how many line events they emit (R131, R138, R140), and that none sends a first frame (R183). -/

namespace Sys2Proof.Proofs

open Sys2Proof.Machine Sys2Proof.Safety Sys2Proof.Laws

/-- Settles O27: the check for a session stands before all else, whichever the operation. -/
theorem deviceOpsNeedSession : Obligations.DeviceOpsNeedSession := fun _ _ hi hmode => exec_deviceOp_closed hi hmode

/-! ### Reads -/

theorem groupsWords_length (h : Nat → Reg16) (k : Nat) : (groupsWords h k).length = 4 * k := by
  induction k generalizing h with
  | zero => rfl
  | succ k ih =>
    rw [groupsWords, List.length_append, ih, groupList]
    simp only [List.length_cons, List.length_nil]
    omega

/-- Settles O29: the block read of `exec_readMem_session`, four words to a group. -/
theorem readMemEffect : Obligations.ReadMemEffect := by
  intro s a n hs hpos hmod hle
  refine ⟨exec_readMem_session a hs ((readCountOk_iff _).mpr ⟨hpos, hmod, hle⟩), ?_⟩
  rw [groupsWords_length]
  omega

/-- READ_CFG's body is READ_MEM's, whose count check twelve words pass (R133). -/
theorem engReadCfg_eq_engReadMem (sc : Scripts) :
    engReadCfg sc = engReadMem sc Config.cfgBase Config.cfgWords := by
  have hcount : violateIf (fun _ => !readCountOk Config.cfgWords) .count = (pure () : Op Unit) := rfl
  rw [engReadCfg, engReadMem, hcount, pure_bind]

/-- Settles O31, by `engReadCfg_eq_engReadMem`. -/
theorem readCfgIsReadMem : Obligations.ReadCfgIsReadMem := fun s =>
  congrArg (serve State.freeRead · s) (engReadCfg_eq_engReadMem Config.scripts)

/-- Settles O30: READ_MEM's effect (O29) at twelve words from `CFG_BASE`, which READ_CFG is (O31). -/
theorem readCfgEffect : Obligations.ReadCfgEffect := by
  intro s hs
  rw [readCfgIsReadMem s]
  exact readMemEffect s 0xF80000 12 hs (by decide) (by decide) (by decide)

/-- Settles O32: a read's working registers are left free, whatever the group read put there. -/
theorem readDevidEffect : Obligations.ReadDevidEffect := by
  intro s hs
  obtain ⟨hmode, -, hopen⟩ := hs
  obtain ⟨k, hread⟩ := engReadDevid_ok Config.scripts scripts_wf s hmode hopen
  rw [← freeRead_withRead _ k]
  exact serve_returned State.freeRead hread

/-! ### ERASE -/

/-- ERASE in a session: its two scripts as one list of commands, and the delay (R140). -/
theorem engErase_session (sc : Scripts) {s : State} (hs : Session s) :
    ∃ k, (engErase sc).run s = .ok [] (withSeq (did s (sends (sc.sErase ++ sc.sEraseTrigger) ++ [.wait 330])) k) := by
  obtain ⟨hmode, -, hopen⟩ := hs
  obtain ⟨j, herase⟩ := runCmds_ok sc.sErase s hopen
  obtain ⟨k, htrigger⟩ := runCmds_ok sc.sEraseTrigger (withSeq (did s (sends sc.sErase)) j) hopen
  rw [did_withSeq, withSeq_withSeq, did_append, ← sends_append] at htrigger
  refine ⟨k, ?_⟩
  rw [engErase, bind_ok (requireSession_ok hmode), bind_ok herase, bind_ok htrigger, delay_act, pure_run, did_withSeq,
    did_append]

/-- Settles O39, by `engErase_session`. -/
theorem eraseEffect : Obligations.EraseEffect := by
  intro s hs
  obtain ⟨k, herase⟩ := engErase_session Config.scripts hs
  rw [← freeSeq_withSeq _ k]
  exact serve_returned State.freeSeq herase

/-! ### WRITE_MEM -/

/-- Acts that read no register use up none of the device's answers (R5). -/
theorem heard_did_of_readsIn_zero {as : List Act} (hreads : readsIn as = 0) (s : State) : heard (did s as) = heard s :=
  funext fun i => by rw [heard_did, hreads, Nat.zero_add]

theorem readsIn_writeActs (sc : Scripts) (a : Addr24) (d : List Word24) : readsIn (writeActs sc a d) = 0 := by
  rw [writeActs, readsIn_append, readsIn_sends]
  rfl

/-- A WriteTimeout is no violation: it leaves a request's working registers free, as a normal end does (R163). -/
theorem serve_timedOut (free : State → State) {body : Op (List Word24)} {e : Err} {s t : State}
    (h : body.run s = .error e t) (he : e.setsFatal = false) : serve free body s = .next ((free t).raised e) := by
  rw [serve, h]
  simp only [he, Bool.false_eq_true, if_false]

theorem withRead_withWork (s : State) (k : ReadRegs) (q : WorkRegs) : withWork (withRead s k) q = withWork s q := rfl

section WriteMem

variable (sc : Scripts) (a : Addr24) {d : List Word24} {s : State} (hs : Session s) (hlen : d.length = 64)
include hs hlen

/-- WRITE_MEM in a session comes to its poll, with the device's answers as they were (R138). -/
theorem engWriteMem_session :
    ∃ k, heard (withRead (did s (writeActs sc a d)) k) = heard s ∧
      (engWriteMem sc a d).run s =
        (pollOrRaise sc (.blockTimeout 20) >>= fun _ => pure []).run (withRead (did s (writeActs sc a d)) k) := by
  obtain ⟨hmode, -, hopen⟩ := hs
  obtain ⟨k, hstart⟩ := writeMem_start sc a d (fun _ => pollOrRaise sc (.blockTimeout 20) >>= fun _ => pure []) s hopen
  refine ⟨k, ?_, ?_⟩
  · rw [heard_withRead, heard_did_of_readsIn_zero (readsIn_writeActs sc a d)]
  · rw [engWriteMem, bind_ok (requireSession_ok hmode), bind_ok (violateIf_false (by simp [hlen]))]
    exact hstart

theorem engWriteMem_done {k : Nat} (hk : k < 20) (hfirst : FirstDoneAt (heard s) k) :
    ∃ q, (engWriteMem sc a d).run s =
      .ok [] (withWork (did s (writeActs sc a d ++ pollActs sc (heard s) (k + 1))) q) := by
  obtain ⟨x, hheard, hstart⟩ := engWriteMem_session sc a hs hlen
  obtain ⟨-, -, hopen⟩ := hs
  obtain ⟨q, hpoll⟩ := pollOrRaise_done sc (.blockTimeout 20) k hk (withRead (did s (writeActs sc a d)) x) hopen
    (by rwa [hheard])
  rw [hheard, did_withRead, did_append, withRead_withWork] at hpoll
  exact ⟨q, by rw [hstart, bind_ok hpoll, pure_run]⟩

theorem engWriteMem_never (hnever : NeverDone (heard s)) :
    ∃ q, (engWriteMem sc a d).run s =
      .error (.blockTimeout 20) (withWork (did s (writeActs sc a d ++ pollActs sc (heard s) 20)) q) := by
  obtain ⟨x, hheard, hstart⟩ := engWriteMem_session sc a hs hlen
  obtain ⟨-, -, hopen⟩ := hs
  obtain ⟨q, hpoll⟩ := pollOrRaise_never sc (.blockTimeout 20) (withRead (did s (writeActs sc a d)) x) hopen
    (by rwa [hheard])
  rw [hheard, did_withRead, did_append, withRead_withWork] at hpoll
  exact ⟨q, by rw [hstart, bind_error hpoll]⟩

end WriteMem

/-- Settles O36: `engWriteMem_done` and `engWriteMem_never`, all working registers left free. -/
theorem writeMemEffect : Obligations.WriteMemEffect := by
  intro s a d hs hlen
  refine ⟨fun k hk hfirst => ?_, fun hnever => ?_⟩
  · obtain ⟨q, hdone⟩ := engWriteMem_done Config.scripts a hs hlen hk hfirst
    rw [← freeWrite_withWork _ q]
    exact serve_returned State.freeWrite hdone
  · obtain ⟨q, htimeout⟩ := engWriteMem_never Config.scripts a hs hlen hnever
    rw [← freeWrite_withWork _ q]
    exact serve_timedOut State.freeWrite htimeout rfl

/-! ### WRITE_CFG -/

/-- Configuration words read as many register values as their polls make attempts (R135). -/
theorem readsIn_cfgActs (sc : Scripts) (h : Nat → Reg16) {vs : List Word24} {ks : List Nat} (hks : ks.length = vs.length) :
    readsIn (cfgActs sc h vs ks) = ks.sum := by
  induction vs generalizing h ks with
  | nil =>
    rw [List.eq_nil_of_length_eq_zero hks]
    rfl
  | cons v vs ih =>
    cases ks with
    | nil => cases hks
    | cons k ks =>
      rw [cfgActs, readsIn_append, readsIn_append, readsIn_cfgWordActs, readsIn_pollActs, ih _ (Nat.succ.inj hks),
        List.sum_cons, Nat.zero_add]

/-- An operation after two that run alike runs alike. -/
theorem bind_run_congr {α β : Type} {x y : Op α} {s t : State} (h : x.run s = y.run t) (f : α → Op β) :
    (x >>= f).run s = (y >>= f).run t := by
  simp only [bind, EStateM.bind, EStateM.run] at h ⊢
  rw [h]

/-- WRITE_CFG in a session, once the words `vs` have been polled with success: the words `ws` are left, and the device's
answers that those polls did not use up (R139). -/
theorem engWriteCfg_session (sc : Scripts) {vs ws : List Word24} {ks : List Nat} {s : State} (hs : Session s)
    (hlen : (vs ++ ws).length = 12) (hks : ks.length = vs.length) (hpolled : CfgPolled (heard s) ks) :
    ∃ q, heard (withWork (did s (sends (sc.sSetupCfgw 0xF80000) ++ cfgActs sc (heard s) vs ks)) q) =
        (fun j => heard s (ks.sum + j)) ∧
      (engWriteCfg sc (vs ++ ws)).run s = (writeCfgWords sc ws vs.length >>= fun _ => pure []).run
        (withWork (did s (sends (sc.sSetupCfgw 0xF80000) ++ cfgActs sc (heard s) vs ks)) q) := by
  obtain ⟨hmode, -, hopen⟩ := hs
  obtain ⟨k, hsetup⟩ := runCmds_ok (sc.sSetupCfgw Config.cfgBase) s hopen
  have hheard : heard (withSeq (did s (sends (sc.sSetupCfgw Config.cfgBase))) k) = heard s := by
    rw [heard_withSeq, heard_did_of_readsIn_zero (readsIn_sends _)]
  obtain ⟨q, hwords⟩ := writeCfgWords_ok sc vs ws ks 0 (withSeq (did s (sends (sc.sSetupCfgw Config.cfgBase))) k) hopen
    hks (hheard.symm ▸ hpolled)
  rw [hheard, did_withSeq, did_append, Nat.zero_add] at hwords
  refine ⟨q, ?_, ?_⟩
  · funext j
    rw [heard_withWork, heard_did, readsIn_append, readsIn_sends, readsIn_cfgActs sc _ hks, Nat.zero_add]
  · rw [engWriteCfg, bind_ok (requireSession_ok hmode), bind_ok (violateIf_false (by simp [hlen])), bind_ok hsetup]
    exact bind_run_congr hwords _

/-- Settles O37: `engWriteCfg_session` with no word left. -/
theorem writeCfgEffect : Obligations.WriteCfgEffect := by
  intro s d ks hs hlen hks hpolled
  obtain ⟨q, -, hrun⟩ := engWriteCfg_session Config.scripts (vs := d) (ws := []) hs (by simp [hlen]) (hks.trans hlen.symm)
    hpolled
  rw [List.append_nil] at hrun
  rw [← freeWrite_withWork _ q]
  exact serve_returned State.freeWrite hrun

/-- A word whose poll times out ends the configuration words, and the error names it (R139, R141). -/
theorem writeCfgWords_never (sc : Scripts) (v : Word24) (vs : List Word24) (i : Nat) {s : State} (hopen : s.drv = .opened)
    (hnever : NeverDone (heard s)) :
    ∃ q, (writeCfgWords sc (v :: vs) i).run s =
      .error (.cfgTimeout i 20) (withWork (did s (cfgWordActs sc v ++ pollActs sc (heard s) 20)) q) :=
  cfgWord_error sc v (.cfgTimeout i 20) i s hopen hnever fun _ => writeCfgWords sc vs (i + 1)

/-- WRITE_CFG in a session where the words `vs` are polled with success and the next times out: it stops there (R139, R163). -/
theorem engWriteCfg_never (sc : Scripts) {vs ws : List Word24} {v : Word24} {ks : List Nat} {s : State} (hs : Session s)
    (hlen : (vs ++ v :: ws).length = 12) (hks : ks.length = vs.length) (hpolled : CfgPolled (heard s) ks)
    (hnever : NeverDone fun j => heard s (ks.sum + j)) :
    ∃ q, (engWriteCfg sc (vs ++ v :: ws)).run s = .error (.cfgTimeout vs.length 20)
      (withWork (did s (sends (sc.sSetupCfgw 0xF80000) ++ (cfgActs sc (heard s) vs ks ++ (cfgWordActs sc v ++
        pollActs sc (fun j => heard s (ks.sum + j)) 20)))) q) := by
  obtain ⟨x, hheard, hrun⟩ := engWriteCfg_session sc hs hlen hks hpolled
  obtain ⟨-, -, hopen⟩ := hs
  obtain ⟨q, htimeout⟩ := writeCfgWords_never sc v ws vs.length
    (s := withWork (did s (sends (sc.sSetupCfgw 0xF80000) ++ cfgActs sc (heard s) vs ks)) x) hopen (by rwa [hheard])
  rw [hheard, did_withWork, withWork_withWork, did_append, List.append_assoc] at htimeout
  exact ⟨q, by rw [hrun, bind_error htimeout]⟩

/-- Settles O38: `engWriteCfg_never`, the words cut at the one that times out. -/
theorem writeCfgTimesOut : Obligations.WriteCfgTimesOut := by
  intro s d ks v hs hlen hlt hv hpolled hnever
  obtain ⟨hi, hget⟩ := List.getElem?_eq_some_iff.mp hv
  have hsplit : d.take ks.length ++ v :: d.drop (ks.length + 1) = d := by
    rw [← hget, ← List.drop_eq_getElem_cons hi, List.take_append_drop]
  have htake : (d.take ks.length).length = ks.length := List.length_take_of_le hi.le
  obtain ⟨q, htimeout⟩ := engWriteCfg_never Config.scripts hs (by rw [hsplit, hlen]) htake.symm hpolled hnever
  rw [hsplit, htake] at htimeout
  rw [← freeWrite_withWork _ q]
  exact serve_timedOut State.freeWrite htimeout rfl

/-! ### The trace formulas -/

/-- How many line events an act emits, from whatever levels (R87). -/
def actEventCount : Act → Nat
  | .command first _ => if first then 91 else 81
  | .read _ => 74
  | .wait _ => 1

/-- How many line events acts emit one after the other. -/
def actsEventCount (as : List Act) : Nat := (as.map actEventCount).sum

@[simp] theorem actsEventCount_nil : actsEventCount [] = 0 := rfl

@[simp] theorem actsEventCount_cons (a : Act) (as : List Act) :
    actsEventCount (a :: as) = actEventCount a + actsEventCount as := by
  simp [actsEventCount]

@[simp] theorem actsEventCount_append (as bs : List Act) :
    actsEventCount (as ++ bs) = actsEventCount as + actsEventCount bs := by
  simp [actsEventCount]

theorem actEvents_length (g : Signals) (a : Act) : (a.events g).length = actEventCount a := by
  cases a with
  | command first c => exact (sixEvents_counts g first c).1
  | read v => exact (regoutEvents_counts g v).1
  | wait ms => rfl

theorem actsEvents_length (g : Signals) (as : List Act) : (actsEvents g as).length = actsEventCount as := by
  induction as generalizing g with
  | nil => rfl
  | cons a as ih => rw [actsEvents, List.length_append, actEvents_length, ih, actsEventCount_cons]

theorem did_trace_length (s : State) (as : List Act) : (did s as).trace.length = s.trace.length + actsEventCount as := by
  rw [did_trace, List.length_append, List.length_reverse, actsEvents_length, Nat.add_comm]

@[simp] theorem actsEventCount_sends (cs : List Cmd) : actsEventCount (sends cs) = 81 * cs.length := by
  induction cs with
  | nil => rfl
  | cons c cs ih =>
    rw [sends, List.map_cons, actsEventCount_cons, ← sends, ih, List.length_cons, Nat.mul_succ, Nat.add_comm]
    rfl

/-- A register read emits 74 events where a command emits 81 (R87). -/
theorem actsEventCount_itemActs (h : Nat → Reg16) (is : List Item) (j : Nat) :
    actsEventCount (itemActs h is j) = 81 * (is.length - is.count .regOut) + is.count .regOut * 74 := by
  induction is generalizing j with
  | nil => rfl
  | cons i is ih =>
    have hle : is.count .regOut ≤ is.length := List.count_le_length
    cases i with
    | exec c =>
      rw [itemActs, actsEventCount_cons, ih, List.length_cons, List.count_cons_of_ne (by simp), actEventCount]
      simp only [Bool.false_eq_true, if_false]
      omega
    | regOut =>
      rw [itemActs, actsEventCount_cons, ih, List.length_cons, List.count_cons_self, actEventCount]
      omega

theorem actsEventCount_groupsActs {sc : Scripts} (hwf : sc.Wf) (h : Nat → Reg16) (k : Nat) :
    actsEventCount (groupsActs sc h k) = k * (81 * (sc.gRead.length - 6) + 6 * 74) := by
  obtain ⟨hsix, -⟩ := hwf
  induction k generalizing h with
  | zero => exact (Nat.zero_mul _).symm
  | succ k ih => rw [groupsActs, actsEventCount_append, actsEventCount_itemActs, hsix, ih, Nat.succ_mul k, Nat.add_comm]

theorem actsEventCount_pollActs (sc : Scripts) (h : Nat → Reg16) (n : Nat) :
    actsEventCount (pollActs sc h n) = n * (81 * sc.sStatus.length + 74) := by
  induction n generalizing h with
  | zero => exact (Nat.zero_mul _).symm
  | succ n ih =>
    rw [pollActs, actsEventCount_append, actsEventCount_sends, actsEventCount_cons, ih, actEventCount, Nat.succ_mul n]
    omega

theorem groupCmds_length (sc : Scripts) (d : List Word24) (k g : Nat) :
    (groupCmds sc d k g).length = k * (6 + sc.sLatch.length) := by
  induction k generalizing g with
  | zero => exact (Nat.zero_mul _).symm
  | succ k ih =>
    rw [groupCmds, List.length_append, List.length_append, ih, Nat.succ_mul k, groupLoads]
    simp only [List.length_cons, List.length_nil]
    omega

/-- Settles O40: the acts of each effect (O29, O36, O39), counted. -/
theorem traceLengths : Obligations.TraceLengths := by
  intro s a hs
  refine ⟨fun n hpos hmod hle => ?read, fun d k hlen hk hfirst => ?write, ?erase⟩
  case read =>
    obtain ⟨hexec, -⟩ := readMemEffect s a n hs hpos hmod hle
    refine ⟨_, hexec, ?_⟩
    rw [returned_trace, freeRead_trace, did_trace_length, readActs, actsEventCount_append, actsEventCount_sends,
      actsEventCount_groupsActs scripts_wf, Nat.add_assoc]
  case write =>
    obtain ⟨hdone, -⟩ := writeMemEffect s a d hs hlen
    refine ⟨_, hdone k hk hfirst, ?_⟩
    rw [returned_trace, freeWrite_trace, did_trace_length, actsEventCount_append, actsEventCount_pollActs, writeActs,
      actsEventCount_append, actsEventCount_sends, List.length_append, List.length_append, groupCmds_length,
      actsEventCount_cons, actsEventCount_nil, actEventCount]
    omega
  case erase =>
    refine ⟨_, eraseEffect s hs, ?_⟩
    rw [returned_trace, freeSeq_trace, did_trace_length, actsEventCount_append, actsEventCount_sends, List.length_append,
      actsEventCount_cons, actsEventCount_nil, actEventCount, Nat.add_zero, Nat.add_assoc]

/-! ### No first frame -/

/-- A device operation is served over a body of acts, none a first frame (R125). -/
theorem exec_deviceOp_served {i : Instr} (hi : isDeviceOp i = true) :
    ∃ free body, (∀ u, WorkOnly u (free u)) ∧ DoesActs body ∧ ∀ s, exec i s = serve free body s := by
  cases i with
  | readDevid => exact ⟨_, _, workOnly_freeRead, doesActs_engReadDevid Config.scripts, fun _ => rfl⟩
  | readMem a n => exact ⟨_, _, workOnly_freeRead, doesActs_engReadMem Config.scripts a n.toNat, fun _ => rfl⟩
  | writeMem a d => exact ⟨_, _, workOnly_freeWrite, doesActs_engWriteMem Config.scripts a d, fun _ => rfl⟩
  | readCfg => exact ⟨_, _, workOnly_freeRead, doesActs_engReadCfg Config.scripts, fun _ => rfl⟩
  | writeCfg d => exact ⟨_, _, workOnly_freeWrite, doesActs_engWriteCfg Config.scripts d, fun _ => rfl⟩
  | erase => exact ⟨_, _, workOnly_freeSeq, doesActs_engErase Config.scripts, fun _ => rfl⟩
  | beginSession | endSession | startDev | stopDev | reservedOpAB | reservedOpCF | enter | leave | execCmd | regout | pack
  | unpack | keyFrame | sixFrame | sixFirstFrame | regoutFrame => cases hi

/-- Neither a response nor a free working register is an event. -/
theorem trace_of_workOnly_ends {s u t : State} (hwork : WorkOnly s u) (hend : Ends u t) : t.trace = s.trace := by
  obtain ⟨q, n, rfl⟩ := hwork
  obtain rfl | ⟨v, rfl⟩ | ⟨e, rfl⟩ := hend <;> rfl

/-- Settles O42: where the driver is open, the acts of `exec_deviceOp_served`; in Idle the operation is refused (O27), which
is no act. -/
theorem deviceOpsSendNoFirstFrame : Obligations.DeviceOpsSendNoFirstFrame := by
  intro s t i hctl hi h
  obtain ⟨hmode, -, -⟩ | ⟨-, -, hopen⟩ | ⟨-, -, hopen⟩ := hctl
  · cases (exec_deviceOp_closed hi hmode).symm.trans h
    exact ⟨[], by simp, rfl⟩
  all_goals
    obtain ⟨free, body, hfree, hacts, hserve⟩ := exec_deviceOp_served hi
    obtain ⟨u, hwork, hend⟩ := serve_ends hfree (hserve s ▸ h)
    obtain ⟨as, q, hfirst, hdid⟩ := hacts s hopen
    refine ⟨as, hfirst, ?_⟩
    rw [trace_of_workOnly_ends hwork hend, hdid]
    rfl

end Sys2Proof.Proofs
end

section
/-! PROOFS. The family `60_exceptions.md`: that WriteTimeout is the two writes' alone and leaves the block in Session (R110,
R163), the five delay values (R171), and the idle block (R172). -/

namespace Sys2Proof.Proofs

open Sys2Proof.Machine Sys2Proof.Safety Sys2Proof.Laws

/-- Settles O9. -/
theorem idleStepHoldsState : Obligations.IdleStepHoldsState := fun _ hpend => step_of_idle hpend

/-- Settles O51: the delays of the events a step adds are among the five, and so are those before them. -/
theorem stepKeepsDelays : Obligations.StepKeepsDelays := by
  intro s t hs h
  obtain ⟨⟨evs, htrace, -, hadded⟩, -⟩ := step_advances h
  have hs : s.trace.all delayOk = true := hs
  rw [DelaysOk, htrace, List.all_append, List.all_reverse, hadded, hs, Bool.true_and]

/-! ### Requests that end in time -/

/-- The request was answered, and not with WriteTimeout. -/
def EndsInTime (o : Host.Outcome State Fault Refusal) : Prop := ∃ t, o = .next t ∧ t.status ≠ .writeTimeout

theorem endsInTime_of_violated {o : Host.Outcome State Fault Refusal} {u : State} {c : PvCause}
    (h : o = .next (u.raised (.violation c))) : EndsInTime o := ⟨_, h, nofun⟩

theorem endsInTime_of_returned {o : Host.Outcome State Fault Refusal} {u : State} {v : List Word24}
    (h : o = .next (u.returned v)) : EndsInTime o := ⟨_, h, nofun⟩

/-- Outside Session MODE is Closed (R110). -/
theorem session_or_closed {s : State} (hctl : ControlOk s) : Session s ∨ s.mode = .closed := by
  obtain ⟨hmode, -, -⟩ | hs | ⟨hmode, -, -⟩ := hctl
  · exact .inr hmode
  · exact .inl hs
  · exact .inr hmode

/-- A request that has its effect from Idle is refused in Session and in Running (R111, R113). -/
theorem endsInTime_fromIdle {o : Host.Outcome State Fault Refusal} {s u : State} {v : List Word24} {c c' : PvCause}
    (hctl : ControlOk s)
    (h : (Idle s → o = .next (u.returned v)) ∧ (s.mode = .sessionOpen → o = .next (s.raised (.violation c))) ∧
      (s.mode = .closed → s.run = true → o = .next (s.raised (.violation c')))) : EndsInTime o := by
  obtain ⟨hidle, hsession, hrunning⟩ := h
  obtain hs | ⟨hmode, -, -⟩ | ⟨hmode, hrun, -⟩ := hctl
  · exact endsInTime_of_returned (hidle hs)
  · exact endsInTime_of_violated (hsession hmode)
  · exact endsInTime_of_violated (hrunning hmode hrun)

/-- A device operation can time out in a session only, being refused elsewhere (R125). -/
theorem endsInTime_deviceOp {i : Instr} (hi : isDeviceOp i = true) {s : State} (hctl : ControlOk s)
    (hsession : Session s → EndsInTime (exec i s)) : EndsInTime (exec i s) := by
  obtain hs | hmode := session_or_closed hctl
  · exact hsession hs
  · exact endsInTime_of_violated (exec_deviceOp_closed hi hmode)

/-- READ_MEM returns on a legal count and raises PV_COUNT on any other (R46, R131). -/
theorem endsInTime_readMem (a : Addr24) (n : BitVec 7) {s : State} (hs : Session s) : EndsInTime (exec (.readMem a n) s) := by
  obtain ⟨hmode, -, -⟩ := id hs
  by_cases hn : 0 < n.toNat ∧ n.toNat % 4 = 0 ∧ n.toNat ≤ 64
  · obtain ⟨hpos, hgroups, hmax⟩ := hn
    obtain ⟨hread, -⟩ := readMemEffect s a n hs hpos hgroups hmax
    exact endsInTime_of_returned hread
  · obtain ⟨hcount, -, -⟩ := countsAreChecked s a hmode
    exact endsInTime_of_violated (hcount n (by omega))

/-- An instruction that writes device memory and polls for its completion (R136). -/
def IsWrite (i : Instr) : Prop := (∃ a d, i = .writeMem a d) ∨ ∃ d, i = .writeCfg d

theorem IsWrite.isDeviceOp {i : Instr} (hi : IsWrite i) : isDeviceOp i = true := by
  obtain ⟨a, d, rfl⟩ | ⟨d, rfl⟩ := hi <;> rfl

/-- Every request but the two writes ends in time: each has its effect or is refused, and neither is a WriteTimeout. -/
theorem isWrite_or_endsInTime {i : Instr} (hi : isRequest i = true) {s : State} (hctl : ControlOk s) :
    IsWrite i ∨ EndsInTime (exec i s) := by
  cases i with
  | writeMem a d => exact .inl (.inl ⟨a, d, rfl⟩)
  | writeCfg d => exact .inl (.inr ⟨d, rfl⟩)
  | readDevid => exact .inr (endsInTime_deviceOp rfl hctl fun hs => endsInTime_of_returned (readDevidEffect s hs))
  | readMem a n => exact .inr (endsInTime_deviceOp rfl hctl (endsInTime_readMem a n))
  | readCfg =>
    refine .inr (endsInTime_deviceOp rfl hctl fun hs => ?_)
    rw [readCfgIsReadMem s]
    exact endsInTime_readMem _ _ hs
  | erase => exact .inr (endsInTime_deviceOp rfl hctl fun hs => endsInTime_of_returned (eraseEffect s hs))
  | beginSession => exact .inr (endsInTime_fromIdle hctl (beginEffect s))
  | endSession =>
    obtain ⟨hsession, hclosed⟩ := endEffect s
    obtain hs | hmode := session_or_closed hctl
    · exact .inr (endsInTime_of_returned (hsession hs))
    · exact .inr (endsInTime_of_violated (hclosed hmode))
  | startDev => exact .inr (endsInTime_fromIdle hctl (startDevEffect s))
  | stopDev =>
    obtain ⟨hrunning, hstopped⟩ := stopDevEffect s
    obtain ⟨-, hrun, -⟩ | ⟨-, hrun, -⟩ | hs := hctl
    · exact .inr (endsInTime_of_violated (hstopped hrun))
    · exact .inr (endsInTime_of_violated (hstopped hrun))
    · exact .inr (endsInTime_of_returned (hrunning hs))
  | reservedOpAB | reservedOpCF => exact .inr ⟨_, rfl, nofun⟩
  | enter | leave | execCmd | regout | pack | unpack | keyFrame | sixFrame | sixFirstFrame | regoutFrame => cases hi

/-! ### WriteTimeout -/

/-- A device operation leaves a session open however it ends: acts, working registers and a response keep it (R110, R163). -/
theorem exec_deviceOp_keepsSession {i : Instr} (hi : isDeviceOp i = true) {s t : State} (hs : Session s)
    (h : exec i s = .next t) : Session t := by
  obtain ⟨free, body, hfree, hacts, hserve⟩ := exec_deviceOp_served hi
  obtain ⟨u, ⟨q, n, rfl⟩, hend⟩ := serve_ends hfree (hserve s ▸ h)
  obtain ⟨hmode, hrun, hopen⟩ := hs
  obtain ⟨as, p, -, hdid⟩ := hacts s hopen
  rw [hdid] at hend
  obtain rfl | ⟨v, rfl⟩ | ⟨e, rfl⟩ := hend <;> exact ⟨hmode, hrun, hopen⟩

/-- Settles O45: a request that does not end in time is a write; its status sets no `FATAL` (O43); and it was in a session,
being refused elsewhere, which it keeps. -/
theorem timeoutOnlyFromWrites : Obligations.TimeoutOnlyFromWrites := by
  intro s t i hctl hi h hstatus
  obtain hwrite | ⟨u, hended, hother⟩ := isWrite_or_endsInTime hi hctl
  · refine ⟨hwrite, ?_, ?_⟩
    · obtain ⟨r, -, hshown, -, -, hfatal⟩ := responseStatusFatal s t i hi h
      rw [← hshown, hstatus] at hfatal
      exact hfatal.trans ((Bool.or_false _).trans (Bool.or_false _))
    · obtain hs | hmode := session_or_closed hctl
      · exact exec_deviceOp_keepsSession hwrite.isDeviceOp hs h
      · cases (exec_deviceOp_closed hwrite.isDeviceOp hmode).symm.trans h
        cases hstatus
  · cases hended.symm.trans h
    exact absurd hstatus hother

end Sys2Proof.Proofs
end

section
/-! PROOFS. The family `70_reset_and_hazards.md`: the delays of the line trace after block reset (R180). -/

namespace Sys2Proof.Proofs

open Sys2Proof.Machine Sys2Proof.Safety Sys2Proof.Laws

/-- Settles O52: the line trace after reset holds no event (O11), so no delay. -/
theorem resetDelays : Obligations.ResetDelays := by
  obtain ⟨-, -, -, -, -, -, -, htrace⟩ := resetIsIdle
  rw [Obligations.ResetDelays, DelaysOk, htrace, List.all_nil]

end Sys2Proof.Proofs
end

section
/-! PROOFS. The family `other`: the only refusals of a step are those of words that no port can carry (R60, R63, R69; log 7,
log 17). -/

namespace Sys2Proof.Proofs

open Sys2Proof.Machine Sys2Proof.Safety Sys2Proof.Laws

/-- Every instruction ends in a next state: a host request, a primitive or frame run alone (log 8), and CODEC's operations,
which only show their output (R104). -/
theorem exec_next (i : Instr) (s : State) : ∃ t, exec i s = .next t := by
  cases hi : isRequest i with
  | true => exact exec_request_next i hi s
  | false =>
    obtain ⟨body, -, hserve⟩ | ⟨o, hcodec⟩ := exec_internal_cases i hi
    · rw [hserve]
      exact serveAlone_next body s
    · exact ⟨_, hcodec s⟩

/-- Of the words that are no instruction, all but a header with a nonzero unused field are refused (R62; log 7, log 17). -/
theorem rejectWord_eq_refused {e : Reject} {r : Refusal} {s : State} (h : rejectWord e s = .refused r) :
    e = .dataCount ∨ e = .reservedPrimitive ∨ e = .unknownFrame := by
  cases e with
  | irField => cases h
  | dataCount => exact .inl rfl
  | reservedPrimitive => exact .inr (.inl rfl)
  | unknownFrame => exact .inr (.inr rfl)

/-- Settles O10: a step that refuses took a word that is no instruction, as every instruction has a next state
(`exec_next`), and `rejectWord` refuses the three by name. -/
theorem unpresentableWordsRefused : Obligations.UnpresentableWordsRefused := by
  intro s x rest hpend
  refine ⟨step_of_rejected hpend, step_of_rejected hpend, step_of_rejected hpend, fun r h => ?_⟩
  cases hdec : decode x with
  | ok i =>
    obtain ⟨t, hnext⟩ := exec_next i { s with pending := rest }
    cases ((step_of_decoded hpend hdec).trans hnext).symm.trans h
  | error e =>
    obtain rfl | rfl | rfl := rejectWord_eq_refused ((step_of_rejected hpend hdec).symm.trans h)
    · exact .inl rfl
    · exact .inr (.inl rfl)
    · exact .inr (.inr rfl)

end Sys2Proof.Proofs
end
